-- ==== Sys2Proof/Word.lean ====
section
/-! DEFINITION. The words of the block: 64-bit port and state words, and bytes. -/

namespace Sys2Proof

/-- A `u64` (R7, R8): a header, an operand, a raw word, an engine state word. Arithmetic wraps modulo 2^64. -/
abbrev Word := BitVec 64

/-- One byte of the host memory or of a response (R52, R84). -/
abbrev Byte := BitVec 8

end Sys2Proof
end

