-- ==== Sys2Proof/Syntax.lean ====
section
/-! DEFINITION. The commands of the block (30_encoding.md): one constructor per row of the opcode table. -/

namespace Sys2Proof

/-- The engine variants, the field VAR of a CONSTRUCT header (R2, R73). -/
inductive Variant where
  | a
  | b
  | c
  deriving DecidableEq, Repr

/-- `K(v)`, the number of seed words of a variant (R6): 2, 4 and 1. -/
def Variant.seedCount : Variant → Nat
  | .a => 2
  | .b => 4
  | .c => 1

/-- The integer widths of NEXT_INT, the field WC (R74). -/
inductive IntWidth where
  | w8
  | w16
  | w32
  | w64
  deriving DecidableEq, Repr

/-- The formats of NEXT_FLOAT, the field FW (R75): binary64 or binary32. -/
inductive FloatWidth where
  | f64
  | f32
  deriving DecidableEq, Repr

/-- The commands, one constructor per row of the opcode table (R72), with the header's fields decoded and
the operand words as they were sent (R76). -/
inductive Instr where
  /-- CONSTRUCT_SEEDED (R135): the variant and the seed words `SEED0 .. SEED(K-1)`. -/
  | constructSeeded (v : Variant) (seed : List Word)
  /-- CONSTRUCT_ENTROPY (R136). -/
  | constructEntropy (v : Variant)
  /-- NEXT_RAW (R137). -/
  | nextRaw
  /-- NEXT_DOUBLE (R167). -/
  | nextDouble
  /-- NEXT_INT (R163): width, signedness, the words MIN and MAX. -/
  | nextInt (w : IntWidth) (signed : Bool) (lo hi : Word)
  /-- NEXT_FLOAT (R169): format, the words MIN and MAX. -/
  | nextFloat (f : FloatWidth) (lo hi : Word)
  /-- FILL_BYTES (R190): BASE and LEN. -/
  | fillBytes (base len : Word)
  /-- GENERATE_BYTES (R195): COUNT. -/
  | generateBytes (count : Word)
  /-- READ_STATUS (R210). -/
  | readStatus
  /-- READ_MIN (R138). -/
  | readMin
  /-- READ_MAX (R139). -/
  | readMax
  deriving DecidableEq, Repr

end Sys2Proof
end

