-- ==== Sys2Proof/WellFormed.lean ====
section
/-! DEFINITION. Which terms of Instr are commands: the number of seed words is the variant's (R76). -/

namespace Sys2Proof

/-- A command carries exactly the operand words of its opcode (R76). Only CONSTRUCT_SEEDED holds a list;
the other constructors carry their operand words by their type. -/
def Instr.wellFormed : Instr → Bool
  | .constructSeeded v seed => seed.length == v.seedCount
  | .constructEntropy _ => true
  | .nextRaw => true
  | .nextDouble => true
  | .nextInt _ _ _ _ => true
  | .nextFloat _ _ _ => true
  | .fillBytes _ _ => true
  | .generateBytes _ => true
  | .readStatus => true
  | .readMin => true
  | .readMax => true

end Sys2Proof
end

