-- ==== Sys2Proof/Decode.lean ====
section
/-! DEFINITION. Decoding the words of the command port (R70–R82), total on every list of words, and the encoder
written from the same tables. -/

namespace Sys2Proof

/-- A legal header, its fields decoded (R82): a command without its operand words. -/
inductive Header where
  | constructSeeded (v : Variant)
  | constructEntropy (v : Variant)
  | nextRaw
  | nextDouble
  | nextInt (w : IntWidth) (signed : Bool)
  | nextFloat (f : FloatWidth)
  | fillBytes
  | generateBytes
  | readStatus
  | readMin
  | readMax
  deriving DecidableEq, Repr

/-! ## Header fields (R71) -/

/-- `OPC`, bits 7:0. -/
def opcField (h : Word) : BitVec 8 := h.extractLsb' 0 8

/-- `VAR`, bits 9:8. -/
def varField (h : Word) : BitVec 2 := h.extractLsb' 8 2

/-- `WC`, bits 11:10. -/
def wcField (h : Word) : BitVec 2 := h.extractLsb' 10 2

/-- `SGN`, bit 12. -/
def sgnField (h : Word) : BitVec 1 := h.extractLsb' 12 1

/-- `FW`, bit 13. -/
def fwField (h : Word) : BitVec 1 := h.extractLsb' 13 1

/-- Bits 13:8, every field but OPC. -/
def fieldsField (h : Word) : BitVec 6 := h.extractLsb' 8 6

/-- Bits 63:14, reserved, must be zero (R80). -/
def reservedField (h : Word) : BitVec 50 := h.extractLsb' 14 50

/-- The variant VAR names; VAR = 3 names none (R73). -/
def variantOf (v : BitVec 2) : Option Variant :=
  if v = 0 then some .a else if v = 1 then some .b else if v = 2 then some .c else none

/-- The integer width WC names, W = 8 · 2^WC (R74). -/
def intWidthOf (w : BitVec 2) : IntWidth :=
  if w = 0 then .w8 else if w = 1 then .w16 else if w = 2 then .w32 else .w64

/-- The float format FW names (R75). -/
def floatWidthOf (f : BitVec 1) : FloatWidth := if f = 0 then .f64 else .f32

/-- The header of an opcode that uses no field: every other field must be zero (R80). -/
def plainHeader (h : Word) (hd : Header) : Option Header :=
  if fieldsField h ≠ 0 then none else some hd

/-- `decode(h)` of R82, without the operand count: the header's meaning, or none where the header is illegal
(R80, R81). -/
def decodeHeader (h : Word) : Option Header :=
  if reservedField h ≠ 0 then none
  else if opcField h = 0x01 then
    if wcField h ≠ 0 ∨ sgnField h ≠ 0 ∨ fwField h ≠ 0 then none
    else (variantOf (varField h)).map .constructSeeded
  else if opcField h = 0x02 then
    if wcField h ≠ 0 ∨ sgnField h ≠ 0 ∨ fwField h ≠ 0 then none
    else (variantOf (varField h)).map .constructEntropy
  else if opcField h = 0x12 then
    if varField h ≠ 0 ∨ fwField h ≠ 0 then none
    else some (.nextInt (intWidthOf (wcField h)) (sgnField h == 1))
  else if opcField h = 0x13 then
    if varField h ≠ 0 ∨ wcField h ≠ 0 ∨ sgnField h ≠ 0 then none
    else some (.nextFloat (floatWidthOf (fwField h)))
  else if opcField h = 0x10 then plainHeader h .nextRaw
  else if opcField h = 0x11 then plainHeader h .nextDouble
  else if opcField h = 0x20 then plainHeader h .fillBytes
  else if opcField h = 0x21 then plainHeader h .generateBytes
  else if opcField h = 0x30 then plainHeader h .readStatus
  else if opcField h = 0x31 then plainHeader h .readMin
  else if opcField h = 0x32 then plainHeader h .readMax
  else none

/-- `n`, the number of operand words that follow a header (R76). -/
def Header.operandCount : Header → Nat
  | .constructSeeded v => v.seedCount
  | .constructEntropy _ => 0
  | .nextRaw => 0
  | .nextDouble => 0
  | .nextInt _ _ => 2
  | .nextFloat _ => 2
  | .fillBytes => 2
  | .generateBytes => 1
  | .readStatus => 0
  | .readMin => 0
  | .readMax => 0

/-- The command of a header and its operand words, in the order they are sent (R76). It is applied to exactly
`operandCount` words, so the 0 beside each index is never taken. -/
def Header.withOperands (hd : Header) (ops : List Word) : Instr :=
  match hd with
  | .constructSeeded v => .constructSeeded v ops
  | .constructEntropy v => .constructEntropy v
  | .nextRaw => .nextRaw
  | .nextDouble => .nextDouble
  | .nextInt w signed => .nextInt w signed (ops.getD 0 0) (ops.getD 1 0)
  | .nextFloat f => .nextFloat f (ops.getD 0 0) (ops.getD 1 0)
  | .fillBytes => .fillBytes (ops.getD 0 0) (ops.getD 1 0)
  | .generateBytes => .generateBytes (ops.getD 0 0)
  | .readStatus => .readStatus
  | .readMin => .readMin
  | .readMax => .readMax

/-- What the words at the command port give. -/
inductive Decoded where
  /-- The first word is no legal header (R80): it is consumed alone and raises IllegalCommand. -/
  | illegalHeader
  /-- The header is legal and fewer than its operand words follow, or there is no word at all (R83). -/
  | incomplete
  /-- A command and the words after it. -/
  | command (i : Instr) (rest : List Word)
  deriving DecidableEq, Repr

/-- Read one command from a list of words: the header first, then exactly its operand words (R70, R82). -/
def decode : List Word → Decoded
  | [] => .incomplete
  | h :: ws =>
    match decodeHeader h with
    | none => .illegalHeader
    | some hd =>
      if ws.length < hd.operandCount then .incomplete
      else .command (hd.withOperands (ws.take hd.operandCount)) (ws.drop hd.operandCount)

/-- An instruction of at most five words from its bits, numbered as the opcode table numbers them: word `k` is bits
64k+63 down to 64k, and the bits from `nbits` up are zero. Command words cross the port as 64-bit values, so
there is no byte order (R53). -/
def tableWords (nbits w : Nat) : List Word :=
  (List.range 5).map fun k => BitVec.ofNat 64 ((w % 2 ^ nbits) >>> (64 * k))

/-- The instruction the decoder reads from an instruction whose bits are `w`. -/
def decodeTableWord (nbits w : Nat) : Option Instr :=
  match decode (tableWords nbits w) with
  | .command i _ => some i
  | .illegalHeader => none
  | .incomplete => none

/-! ## Encoding -/

/-- The field VAR of a variant (R73). -/
def Variant.var : Variant → Word
  | .a => 0
  | .b => 1
  | .c => 2

/-- The field WC of an integer width (R74). -/
def IntWidth.wc : IntWidth → Word
  | .w8 => 0
  | .w16 => 1
  | .w32 => 2
  | .w64 => 3

/-- The field FW of a float format (R75). -/
def FloatWidth.fw : FloatWidth → Word
  | .f64 => 0
  | .f32 => 1

/-- The header word of a header (R71, R72): OPC with the fields the opcode uses in their places. -/
def Header.word : Header → Word
  | .constructSeeded v => 0x01 ||| v.var <<< 8
  | .constructEntropy v => 0x02 ||| v.var <<< 8
  | .nextRaw => 0x10
  | .nextDouble => 0x11
  | .nextInt w signed => 0x12 ||| w.wc <<< 10 ||| (if signed then 1 else 0) <<< 12
  | .nextFloat f => 0x13 ||| f.fw <<< 13
  | .fillBytes => 0x20
  | .generateBytes => 0x21
  | .readStatus => 0x30
  | .readMin => 0x31
  | .readMax => 0x32

/-- The header of a command. -/
def Instr.header : Instr → Header
  | .constructSeeded v _ => .constructSeeded v
  | .constructEntropy v => .constructEntropy v
  | .nextRaw => .nextRaw
  | .nextDouble => .nextDouble
  | .nextInt w signed _ _ => .nextInt w signed
  | .nextFloat f _ _ => .nextFloat f
  | .fillBytes _ _ => .fillBytes
  | .generateBytes _ => .generateBytes
  | .readStatus => .readStatus
  | .readMin => .readMin
  | .readMax => .readMax

/-- The operand words of a command, in the order they are sent (R76). -/
def Instr.operands : Instr → List Word
  | .constructSeeded _ seed => seed
  | .constructEntropy _ => []
  | .nextRaw => []
  | .nextDouble => []
  | .nextInt _ _ lo hi => [lo, hi]
  | .nextFloat _ lo hi => [lo, hi]
  | .fillBytes base len => [base, len]
  | .generateBytes count => [count]
  | .readStatus => []
  | .readMin => []
  | .readMax => []

/-- The words of a command: its header word, then its operand words (R70). -/
def encode (i : Instr) : List Word := i.header.word :: i.operands

/-- The legal header words and their forms, written out from the table of R88. -/
def legalHeaders : List (Word × Header) :=
  [(0x0001, .constructSeeded .a), (0x0101, .constructSeeded .b), (0x0201, .constructSeeded .c)] ++
  [(0x0002, .constructEntropy .a), (0x0102, .constructEntropy .b), (0x0202, .constructEntropy .c)] ++
  [(0x0010, .nextRaw), (0x0011, .nextDouble)] ++
  [(0x0012, .nextInt .w8 false), (0x0412, .nextInt .w16 false)] ++
  [(0x0812, .nextInt .w32 false), (0x0C12, .nextInt .w64 false)] ++
  [(0x1012, .nextInt .w8 true), (0x1412, .nextInt .w16 true)] ++
  [(0x1812, .nextInt .w32 true), (0x1C12, .nextInt .w64 true)] ++
  [(0x0013, .nextFloat .f64), (0x2013, .nextFloat .f32)] ++
  [(0x0020, .fillBytes), (0x0021, .generateBytes)] ++
  [(0x0030, .readStatus), (0x0031, .readMin), (0x0032, .readMax)]

end Sys2Proof
end

