-- ==== Sys2Proof/Config.lean ====
section
/-! DEFINITION. The parameters of the block (R6, R128) and of the host memory it is launched with (R51), and
the free values: opaque constants that nothing in Lean can evaluate. The parameters' default values stand in
Sys2Proof/Machine/Defaults.lean. -/

namespace Sys2Proof

/-- `A_OUTPUT` (R6, R124): the sum of the updated words, or of the words before the update. -/
inductive AOutput where
  | post
  | pre
  deriving DecidableEq, Repr

/-- A range of host byte addresses, `base` to `base + size - 1`. -/
structure Region where
  base : Nat
  size : Nat
  deriving DecidableEq, Repr

/-- One reading of the entropy port (R101): `sample` is meaningful only when `valid`. -/
structure EntropySample where
  valid : Bool
  sample : BitVec 32
  deriving DecidableEq, Repr, Inhabited

/-- The parameters of R6 and R128, and the host memory's launch configuration (R51). The spec asks a model to
take them as arguments (R6, D8–D10, D21): they are a field of State that no step changes, so a statement
about every state is a statement for every value of them (log entry 1). -/
structure Config where
  /-- `A_SHIFTS = (a1, a2, a3)` (R124). -/
  aShift1 : Nat
  aShift2 : Nat
  aShift3 : Nat
  /-- `A_OUTPUT` (R124). -/
  aOutput : AOutput
  /-- `B_CONST = (bt, br)` (R126): a shift and a rotation. -/
  bShift : Nat
  bRot : Nat
  /-- `C_N`, `C_M`: the state words of Variant C and the middle-word offset (R128). -/
  cN : Nat
  cM : Nat
  /-- `C_UM`, `C_LM`, `C_A`: the masks and the twist word (R128). -/
  cUM : Word
  cLM : Word
  cA : Word
  /-- `C_U`, `C_D`, `C_S`, `C_B`, `C_T`, `C_C`, `C_L`: the tempering shifts and masks (R128). -/
  cU : Nat
  cD : Word
  cS : Nat
  cB : Word
  cT : Nat
  cC : Word
  cL : Nat
  /-- `C_F`: the seed-initialisation multiplier (R128). -/
  cF : Word
  /-- `ADDR_W`, 1..64: the width of a host byte address (R6, R50). -/
  addrW : Nat
  /-- The addresses whose byte writes the host memory refuses (R51); all others it admits. -/
  refused : List Region
  deriving DecidableEq, Repr

/-- What an engine state word holds while no CONSTRUCT has written it: the spec gives no value and forbids a
model to give one (R36, R37). A free value (log entry 3). -/
opaque Config.unspecifiedWord : Nat → Word

/-- What the entropy port gives when State lists no delivered sample: a draw under no law (R101). A free value
(log entry 11). -/
opaque Config.freeEntropy : Nat → EntropySample

/-- What the timestamp port gives when State lists no delivered value: a draw (R102). A free value (log
entry 12). -/
opaque Config.freeTimestamp : Nat → Word

end Sys2Proof
end

