-- ==== Sys2Proof/Machine/Defaults.lean ====
section
/-! DEFINITION. The default values of the parameters, as R6 and R128 give them. -/

namespace Sys2Proof.Machine

/-- The defaults of R6 (A_SHIFTS, A_OUTPUT, B_CONST) and R128 (C_PARAMS, MT19937-64). ADDR_W is open (R6, D21);
64 is the value of the spec's examples (log entry 2). No byte write is refused (log entry 10). -/
def defaultConfig : Config where
  aShift1 := 23
  aShift2 := 18
  aShift3 := 5
  aOutput := .post
  bShift := 17
  bRot := 45
  cN := 312
  cM := 156
  cUM := 0xFFFFFFFF80000000
  cLM := 0x000000007FFFFFFF
  cA := 0xB5026F5AA96619E9
  cU := 29
  cD := 0x5555555555555555
  cS := 17
  cB := 0x71D67FFFEDA60000
  cT := 37
  cC := 0xFFF7EEE000000000
  cL := 43
  cF := 6364136223846793005
  addrW := 64
  refused := []

/-- `WARMUP`, the output-discarding steps of a construction, for every variant (R6, R133). Irreducible,
so that no proof runs 256 steps to compare two states; the kernel evaluates it. -/
@[irreducible] def warmupSteps : Nat := 256

/-- `ENGINE_MIN` (R6, R34). -/
def engineMin : Word := 0

/-- `ENGINE_MAX` (R6, R34): 2^64 − 1. -/
def engineMax : Word := 0xFFFFFFFFFFFFFFFF

end Sys2Proof.Machine
end

