-- ==== Sys2Proof/Machine/State.lean ====
section
/-! DEFINITION. The state of the block and of its ports, as plain data, and the state after reset. -/

namespace Sys2Proof.Machine

/-- The engine state `S` of the selected variant, with the index `MTI` for Variant C (R20, R31, R32). The
constructor is the home of STATUS.VARIANT: one variant is selected at a time (R121), and a word of another
variant holds no value (R142), so it does not exist here (log entry 4). -/
inductive Engine where
  /-- Variant A: `S[0]`, `S[1]`. -/
  | a (s0 s1 : Word)
  /-- Variant B: `S[0]` to `S[3]`. -/
  | b (s0 s1 s2 s3 : Word)
  /-- Variant C: the C_N words and `MTI`. -/
  | c (words : List Word) (mti : Nat)
  deriving DecidableEq, Repr

/-- The fault causes of R221. -/
inductive Cause where
  | invalidRange
  | illegalCommand
  | notConstructed
  | bufferBounds
  deriving DecidableEq, Repr

/-- The STATUS register (R24), each field at one home: CONSTRUCTED and DEGRADED here, FAULTED and CAUSE together
(CAUSE is 0 exactly while FAULTED is 0, R24, R29), VARIANT in the engine. The reserved bits hold nothing
(R30). The 64-bit word is `statusWord` in Flags.lean (log entry 5). -/
structure Status where
  constructed : Bool
  degraded : Bool
  /-- The first fault since reset, if any: FAULTED and CAUSE. -/
  fault : Option Cause
  deriving DecidableEq, Repr

/-- The field CODE of a response (R84). -/
inductive RespCode where
  | ok
  | fault
  | refused
  deriving DecidableEq, Repr

/-- A response `(CODE, VALUE, BYTES)` (R84). -/
structure Response where
  code : RespCode
  value : Word
  bytes : List Byte
  deriving DecidableEq, Repr

/-- What the host does at the command port and the reset input, in order of arrival (R70, R214, R250). -/
inductive HostEvent where
  /-- One 64-bit word at the command port. -/
  | word (w : Word)
  /-- The reset input is asserted. -/
  | reset
  deriving DecidableEq, Repr

/-- The host byte memory: the bytes the block has written or the host lists, at rising addresses (R50). -/
abbrev Memory := List Host.Cell

/-- The state: the block's S, MTI and STATUS (R20), and what stands at its ports. -/
structure State where
  /-- The parameters (R6) and the host memory's launch configuration (R51); no step changes it. -/
  cfg : Config
  /-- `S`, `MTI` and STATUS.VARIANT (R31, R32, R26). -/
  engine : Engine
  /-- STATUS but for VARIANT (R24). -/
  status : Status
  /-- The host byte memory (R50). -/
  mem : Memory
  /-- The words and resets the host has sent and the block has not consumed (R83, R214). -/
  inputs : List HostEvent
  /-- The entropy samples delivered and not yet read (R101). -/
  entropyIn : List EntropySample
  /-- The timestamps delivered and not yet read (R102). -/
  timeIn : List Word
  /-- The model's own: the last timestamp read, for the law of R102. -/
  lastTime : Word
  /-- The model's own: how many free values have been taken. -/
  draws : Nat
  /-- The responses sent, oldest first (R84). -/
  responses : List Response
  deriving DecidableEq, Repr

/-- Why a command is stuck. The spec's own faults (R221) are no stops: they are next states. At the port a reset behind
a stuck command is taken, the model's choice (log entry 21); without one the machine stops. -/
inductive Fault where
  /-- Raised by FILL_BYTES when the host memory refuses a byte of the buffer: the command has no step, no byte
  is written and no response is sent (R51, R226, U10). Safe: the block goes no further either. -/
  | hostWriteRefused
  /-- Raised by NEXT_INT and NEXT_FLOAT when the rejection loop never ends, the engine having come back to a state
  it was in (R165, R170, U16). Safe: the block sends no response either. -/
  | neverAccepts
  deriving DecidableEq, Repr

/-- Why a term of Instr has no meaning. -/
inductive Refusal where
  /-- Raised by an arm of `exec` whose instruction has no meaning yet. Safe. -/
  | notModelled (mnemonic : String)
  /-- Raised by CONSTRUCT_SEEDED for a term whose list of seed words is not K(VAR) long. The decoder gives no such
  term (R76), so no command is refused. Safe. -/
  | illFormed
  deriving DecidableEq, Repr

/-- The engine state right after reset (R36, R250): VARIANT reads 0, and the words hold no value, here the free
values number `n` and `n + 1` (log entry 3). -/
def unspecifiedEngine (n : Nat) : Engine := .a (Config.unspecifiedWord n) (Config.unspecifiedWord (n + 1))

/-- STATUS = 0 (R36). -/
def Status.reset : Status := { constructed := false, degraded := false, fault := none }

/-- The machine right after reset: STATUS = 0, the engine without a value (R36), the default parameters, and
nothing at any port (R251). -/
def State.reset : State where
  cfg := defaultConfig
  engine := unspecifiedEngine 0
  status := Status.reset
  mem := []
  inputs := []
  entropyIn := []
  timeIn := []
  lastTime := 0
  draws := 2
  responses := []

/-! ## Updates of one field -/

def State.setEngine (s : State) (e : Engine) : State := { s with engine := e }

def State.setStatus (s : State) (st : Status) : State := { s with status := st }

def State.setMem (s : State) (m : Memory) : State := { s with mem := m }

def State.setInputs (s : State) (evs : List HostEvent) : State := { s with inputs := evs }

def State.setEntropyIn (s : State) (xs : List EntropySample) : State := { s with entropyIn := xs }

def State.setTimeIn (s : State) (ts : List Word) : State := { s with timeIn := ts }

def State.setLastTime (s : State) (t : Word) : State := { s with lastTime := t }

def State.setDraws (s : State) (n : Nat) : State := { s with draws := n }

def State.setResponses (s : State) (rs : List Response) : State := { s with responses := rs }

end Sys2Proof.Machine
end

