-- ==== Sys2Proof/Machine/Ops.lean ====
section
/-! DEFINITION. The shared operations: responses, raising a fault and the gates of R213, reset, the command port,
the input ports, and the host byte memory. -/

namespace Sys2Proof.Machine

/-! ## Responses and faults -/

/-- The number the host reads in the field CODE of a response (R84). -/
def codeNumber : RespCode → Nat
  | .ok => 0
  | .fault => 1
  | .refused => 2

/-- `respond(code, value, bytes)` (R84): the response is sent after all earlier ones. -/
def respond (code : RespCode) (value : Word) (bytes : List Byte) (s : State) : State :=
  s.setResponses (s.responses ++ [{ code := code, value := value, bytes := bytes }])

/-- An OK response (R85). -/
def respondOk (value : Word) (bytes : List Byte) (s : State) : State := respond .ok value bytes s

/-- The code of a fault cause (R221). -/
def causeCode : Cause → Nat
  | .invalidRange => 1
  | .illegalCommand => 2
  | .notConstructed => 3
  | .bufferBounds => 4

/-- `raise F(code)` (R222): the fault sets FAULTED and CAUSE and responds FAULT with the code, and changes nothing
else (R224, R228). This is the block's whole fault entry, and there is no return from it (R229). -/
def raiseFault (c : Cause) (s : State) : State :=
  respond .fault (BitVec.ofNat 64 (causeCode c)) [] (s.setStatus { s.status with fault := some c })

/-- The first gate of R213: while FAULTED = 1 the command is REFUSED without any other effect (R223). -/
def unlessFaulted (s : State) (body : State → Host.Outcome State Fault Refusal) :
    Host.Outcome State Fault Refusal :=
  if s.status.fault.isSome then .next (respond .refused 0 [] s) else body s

/-- The gates of a draw command (R211, R213): REFUSED while faulted, then NotConstructed while CONSTRUCTED = 0,
before anything else the command does. -/
def whenConstructed (s : State) (body : State → Host.Outcome State Fault Refusal) :
    Host.Outcome State Fault Refusal :=
  unlessFaulted s fun s => if s.status.constructed then body s else .next (raiseFault .notConstructed s)

/-! ## Reset and the command port -/

/-- The reset input (R250): STATUS takes 0 and the engine takes no value (fresh free values, log entry 3). The
host memory and the responses already sent stay. The spec does not say what reset does at the entropy and timestamp
ports: DESIGN CHOICE, draws delivered and not yet read stay, and so does the last timestamp (log entries 11, 12). -/
def assertReset (s : State) : State :=
  ((s.setStatus Status.reset).setEngine (unspecifiedEngine s.draws)).setDraws (s.draws + 2)

/-- The words at the head of the command port, up to a reset or the end. -/
def leadingWords : List HostEvent → List Word
  | [] => []
  | .reset :: _ => []
  | .word w :: evs => w :: leadingWords evs

/-- What follows the words at the head of the command port: nothing, or a reset and what comes after it. -/
def afterWords : List HostEvent → List HostEvent
  | [] => []
  | .reset :: evs => .reset :: evs
  | .word _ :: evs => afterWords evs

/-- What the block finds at its command port and reset input. -/
inductive Fetched where
  /-- Nothing to do: the port is empty, or operand words are still to come (R83, R238). -/
  | waiting
  /-- Reset is asserted, after dropping a partly received command (R250), with what comes after it. -/
  | reset (rest : List HostEvent)
  /-- An illegal header, consumed alone (R80). -/
  | illegal (rest : List HostEvent)
  /-- A command, its operand words consumed (R83). -/
  | command (i : Instr) (rest : List HostEvent)
  deriving DecidableEq, Repr

/-- Take the next command, illegal header or reset from what the host has sent (R70, R83, R250). -/
def fetch (evs : List HostEvent) : Fetched :=
  match decode (leadingWords evs) with
  | .command i _ => .command i (evs.drop (1 + i.operands.length))
  | .illegalHeader => .illegal (evs.drop 1)
  | .incomplete =>
    match afterWords evs with
    | [] => .waiting
    | _ :: rest => .reset rest

/-- What comes of a command at the port, `o` being the outcome of its execution, `rest` what stands behind it. A stuck
command (the faults of the model, U10 and U16) has no step, so nothing of it happens (R226). DESIGN CHOICE (log
entry 21): the next reset in `rest` is taken all the same, and what the host sent before it is discarded with the
stuck command; without a reset the machine stops with the fault. The spec says neither. -/
def resetIfStuck (s : State) (rest : List HostEvent) (o : Host.Outcome State Fault Refusal) :
    Host.Outcome State Fault Refusal :=
  match o with
  | .next t => .next t
  | .refused r => .refused r
  | .fault f =>
    match afterWords rest with
    | [] => .fault f
    | _ :: evs => .next (assertReset (s.setInputs evs))

/-! ## The entropy and timestamp ports -/

/-- `EntropySample()` (R101): the next delivered sample, or a free value where none is listed. -/
def readEntropy (s : State) : EntropySample × State :=
  match s.entropyIn with
  | x :: xs => (x, s.setEntropyIn xs)
  | [] => (Config.freeEntropy s.draws, s.setDraws (s.draws + 1))

/-- The later of two timestamps, as unsigned numbers. -/
def laterTime (last t : Word) : Word := if last.toNat ≤ t.toNat then t else last

/-- `Timestamp()` (R102): the next delivered value, or a free value where none is listed. Successive reads do not
decrease: a value below the last one read is read as that one (log entry 12). -/
def readTimestamp (s : State) : Word × State :=
  match s.timeIn with
  | t :: ts => (laterTime s.lastTime t, (s.setTimeIn ts).setLastTime (laterTime s.lastTime t))
  | [] =>
    (laterTime s.lastTime (Config.freeTimestamp s.draws),
      (s.setDraws (s.draws + 1)).setLastTime (laterTime s.lastTime (Config.freeTimestamp s.draws)))

/-! ## The host byte memory -/

/-- The canonical form of a memory: addresses strictly rising. An unlisted address holds no known value (log
entry 9), so no entry can equal what an unlisted address reads as. -/
abbrev Memory.wf (m : Memory) : Prop := m.Pairwise fun p q => p.1 < q.1

/-- The byte at an address, if the memory lists one. The block itself never reads (R50). -/
def readByte (m : Memory) (a : Nat) : Option Byte :=
  match m with
  | [] => none
  | (x, b) :: rest => if x = a then some b else readByte rest a

/-- `MemWrite(addr, 1, b)` (R52): the byte at the address is replaced, no other byte changes. -/
def writeByte (m : Memory) (a : Nat) (b : Byte) : Memory :=
  match m with
  | [] => [(a, b)]
  | (x, c) :: rest =>
    if a < x then (a, b) :: (x, c) :: rest
    else if a = x then (a, b) :: rest
    else (x, c) :: writeByte rest a b

/-- Byte writes at ascending addresses from `a` (R58). -/
def writeBytes (m : Memory) (a : Nat) : List Byte → Memory
  | [] => m
  | b :: bs => writeBytes (writeByte m a b) (a + 1) bs

/-- The host memory admits a byte write at the address (R51). -/
def admits (cfg : Config) (a : Nat) : Bool :=
  cfg.refused.all fun r => decide (a < r.base ∨ r.base + r.size ≤ a)

/-- The host memory admits every byte write of `base .. base + len - 1` (R51): no refused region meets it. -/
def admitsRange (cfg : Config) (base len : Nat) : Bool :=
  cfg.refused.all fun r => decide (r.size = 0 ∨ len = 0 ∨ base + len ≤ r.base ∨ r.base + r.size ≤ base)

end Sys2Proof.Machine
end

