-- ==== Sys2Proof/Machine/Flags.lean ====
section
/-! DEFINITION. The STATUS register as the word software reads (R24), and the STATUS a CONSTRUCT writes. -/

namespace Sys2Proof.Machine

/-- The variant an engine state is of: STATUS.VARIANT (R26). -/
def engineVariant : Engine → Variant
  | .a _ _ => .a
  | .b _ _ _ _ => .b
  | .c _ _ => .c

/-- The value of STATUS.VARIANT for a variant (R24): 0, 1, 2. -/
def variantCode : Variant → Word
  | .a => 0
  | .b => 1
  | .c => 2

/-- One STATUS bit. -/
def flagBit (b : Bool) : Word := if b then 1 else 0

/-- The field VARIANT (R24): 0 while CONSTRUCTED = 0. -/
def statusVariant (s : State) : Word :=
  if s.status.constructed then variantCode (engineVariant s.engine) else 0

/-- The field CAUSE (R24, R29): the code of the first fault, 0 while FAULTED = 0. -/
def statusCause (s : State) : Word :=
  match s.status.fault with
  | none => 0
  | some c => BitVec.ofNat 64 (causeCode c)

/-- The STATUS register (R24): CONSTRUCTED at bit 0, VARIANT at 2:1, DEGRADED at 3, FAULTED at 4, CAUSE at 11:8;
bits 7:5 and 63:12 are zero (R30). -/
def statusWord (s : State) : Word :=
  flagBit s.status.constructed ||| statusVariant s <<< 1 ||| flagBit s.status.degraded <<< 3 |||
    flagBit s.status.fault.isSome <<< 4 ||| statusCause s <<< 8

/-- What a CONSTRUCT that completes writes (R25, R26, R27, R133): CONSTRUCTED ← 1, DEGRADED ← `degraded`, and the
engine with its variant. FAULTED and CAUSE are 0 then and stay so. -/
def installEngine (e : Engine) (degraded : Bool) (s : State) : State :=
  (s.setEngine e).setStatus { s.status with constructed := true, degraded := degraded }

end Sys2Proof.Machine
end

