-- ==== Sys2Proof/Machine/Engine.lean ====
section
/-! DEFINITION. The engine variants, seeding and warm-up, the seed-gathering path, and the engine commands
(41_engine.md, 40_entropy.md). -/

namespace Sys2Proof.Machine

/-- `rotl(a, k)` for 1 ≤ k ≤ 63 (R8). -/
def rotl (a : Word) (k : Nat) : Word := (a <<< k) ||| (a >>> (64 - k))

/-! ## The step functions -/

/-- The word Variant A shifts in, from `t = S[0]` and `s = S[1]` (R124). -/
def mixA (cfg : Config) (t s : Word) : Word :=
  let t := t ^^^ (t <<< cfg.aShift1)
  let t := t ^^^ (t >>> cfg.aShift2)
  t ^^^ s ^^^ (s >>> cfg.aShift3)

/-- `StepA()` (R124): the raw word and the new engine. -/
def stepA (cfg : Config) (s0 s1 : Word) : Word × Engine :=
  let t := mixA cfg s0 s1
  (match cfg.aOutput with
    | .post => s1 + t
    | .pre => s0 + s1,
   .a s1 t)

/-- `StepB()` (R126): each assignment uses the values the earlier lines left. -/
def stepB (cfg : Config) (s0 s1 s2 s3 : Word) : Word × Engine :=
  let result := rotl (s1 * 5) 7 * 9
  let t := s1 <<< cfg.bShift
  let s2 := s2 ^^^ s0
  let s3 := s3 ^^^ s1
  let s1 := s1 ^^^ s2
  let s0 := s0 ^^^ s3
  let s2 := s2 ^^^ t
  let s3 := rotl s3 cfg.bRot
  (result, .b s0 s1 s2 s3)

/-- `S[i]` of Variant C. The indexes of R129–R131 are below C_N, which is the number of words in every state a run
reaches; beyond the list the word is 0 (log entry 15). -/
def wordAt (ws : List Word) (i : Nat) : Word := ws.getD i 0

/-- One pass of the loop of `RegenC()` (R131), at index `i`, on the array as the earlier passes left it. -/
def twistAt (cfg : Config) (ws : List Word) (i : Nat) : List Word :=
  let x := (wordAt ws i &&& cfg.cUM) ||| (wordAt ws ((i + 1) % cfg.cN) &&& cfg.cLM)
  let xa := x >>> 1
  let xa := if x.getLsbD 0 then xa ^^^ cfg.cA else xa
  ws.set i (wordAt ws ((i + cfg.cM) % cfg.cN) ^^^ xa)

/-- The array after `RegenC()` (R131), which also sets MTI to 0. -/
def regenC (cfg : Config) (ws : List Word) : List Word := (List.range cfg.cN).foldl (twistAt cfg) ws

/-- The tempering of Variant C (R130). -/
def temper (cfg : Config) (y : Word) : Word :=
  let y := y ^^^ ((y >>> cfg.cU) &&& cfg.cD)
  let y := y ^^^ ((y <<< cfg.cS) &&& cfg.cB)
  let y := y ^^^ ((y <<< cfg.cT) &&& cfg.cC)
  y ^^^ (y >>> cfg.cL)

/-- `StepC()` (R130). -/
def stepC (cfg : Config) (ws : List Word) (mti : Nat) : Word × Engine :=
  if cfg.cN ≤ mti then
    let ws := regenC cfg ws
    (temper cfg (wordAt ws 0), .c ws 1)
  else (temper cfg (wordAt ws mti), .c ws (mti + 1))

/-- `Step()` (R10, R122): one step of the selected variant, its raw word and the new engine. It reads the engine
and the configuration and nothing else (R120). -/
def engineStep (cfg : Config) : Engine → Word × Engine
  | .a s0 s1 => stepA cfg s0 s1
  | .b s0 s1 s2 s3 => stepB cfg s0 s1 s2 s3
  | .c ws mti => stepC cfg ws mti

/-- `n` steps whose words are discarded. -/
def discardSteps (cfg : Config) : Nat → Engine → Engine
  | 0, e => e
  | n + 1, e => discardSteps cfg n (engineStep cfg e).2

/-- The raw word number `n` (from 0) that steps from `e` return. -/
def rawWord (cfg : Config) (e : Engine) (n : Nat) : Word := (engineStep cfg (discardSteps cfg n e)).1

/-! ## Seeding -/

/-- The words `S[i], S[i+1], ...` of `InitC` (R129), `k` of them, from the word before. -/
def initWords (cfg : Config) : (k i : Nat) → (prev : Word) → List Word
  | 0, _, _ => []
  | k + 1, i, prev =>
    let w := cfg.cF * (prev ^^^ (prev >>> 62)) + BitVec.ofNat 64 i
    w :: initWords cfg k (i + 1) w

/-- `InitC(s)` (R129): the C_N words, and MTI = C_N. -/
def initC (cfg : Config) (s : Word) : Engine := .c (s :: initWords cfg (cfg.cN - 1) 1 s) cfg.cN

/-- `LoadSeed(v, seed)` (R132). A seed of K(v) words is given (R76), so no 0 beside an index is taken. -/
def loadSeed (cfg : Config) (v : Variant) (seed : List Word) : Engine :=
  match v with
  | .a => .a (seed.getD 0 0) (seed.getD 1 0)
  | .b => .b (seed.getD 0 0) (seed.getD 1 0) (seed.getD 2 0) (seed.getD 3 0)
  | .c => initC cfg (seed.getD 0 0)

/-- The engine of `Construct(v, seed)` (R133): the seed loaded, then the 256 warm-up steps of the command's own
variant (R122). -/
def constructEngine (cfg : Config) (v : Variant) (seed : List Word) : Engine :=
  discardSteps cfg warmupSteps (loadSeed cfg v seed)

/-! ## Seed gathering -/

/-- A seed word from one sample and one timestamp (R103). -/
def seedWordOf (x : EntropySample) (t : Word) : Word :=
  if x.valid then ((x.sample.zeroExtend 64) <<< 32) ||| (t &&& 0xFFFFFFFF) else t &&& 0xFFFFFFFF

/-- `SeedWord()` (R103): the sample is read before the timestamp (D32). The answer is the word, whether the sample
was valid, and the state after the two reads. -/
def readSeedWord (s : State) : Word × Bool × State :=
  let (x, s) := readEntropy s
  let (t, s) := readTimestamp s
  (seedWordOf x t, x.valid, s)

/-- `GatherSeed(K)` (R104): the words in order, word 0 first, whether a sample was unavailable, and the state after
the reads. -/
def gatherSeed : Nat → State → List Word × Bool × State
  | 0, s => ([], false, s)
  | k + 1, s =>
    let (w, ok, s) := readSeedWord s
    let (ws, degraded, s) := gatherSeed k s
    (w :: ws, !ok || degraded, s)

/-! ## The engine commands -/

/-- One `Step()` of the machine: the raw word, and the state with the engine advanced. -/
def stepEngine (s : State) : Word × State :=
  ((engineStep s.cfg s.engine).1, s.setEngine (engineStep s.cfg s.engine).2)

/-- CONSTRUCT_SEEDED (R135). A term with a wrong number of seed words is no command (R76, log entry 14). -/
def execConstructSeeded (v : Variant) (seed : List Word) (s : State) : Host.Outcome State Fault Refusal :=
  unlessFaulted s fun s =>
    if seed.length = v.seedCount then
      .next (respondOk 0 [] (installEngine (constructEngine s.cfg v seed) false s))
    else .refused .illFormed

/-- CONSTRUCT_ENTROPY (R136). Unavailable entropy is no fault (R105, R225). -/
def execConstructEntropy (v : Variant) (s : State) : Host.Outcome State Fault Refusal :=
  unlessFaulted s fun s =>
    let (seed, degraded, s) := gatherSeed v.seedCount s
    .next (respondOk 0 [] (installEngine (constructEngine s.cfg v seed) degraded s))

/-- NEXT_RAW (R137). -/
def execNextRaw (s : State) : Host.Outcome State Fault Refusal :=
  whenConstructed s fun s =>
    let (x, s) := stepEngine s
    .next (respondOk x [] s)

/-- READ_MIN (R138): runs without a constructed engine. -/
def execReadMin (s : State) : Host.Outcome State Fault Refusal :=
  unlessFaulted s fun s => .next (respondOk engineMin [] s)

/-- READ_MAX (R139): runs without a constructed engine. -/
def execReadMax (s : State) : Host.Outcome State Fault Refusal :=
  unlessFaulted s fun s => .next (respondOk engineMax [] s)

end Sys2Proof.Machine
end

