-- ==== Sys2Proof/Machine/Operands.lean ====
section
/-! DEFINITION. How operand words are read: the W-bit integers of NEXT_INT (R77), the patterns of NEXT_FLOAT (R78),
the whole words of FILL_BYTES and GENERATE_BYTES (R79), and the integer result as a response value (R85). -/

namespace Sys2Proof.Machine

/-- `W` of an integer width (R74). -/
def intBits : IntWidth → Nat
  | .w8 => 8
  | .w16 => 16
  | .w32 => 32
  | .w64 => 64

/-- Bits [W−1:0] of an operand word, as an unsigned number; the upper bits are ignored (R77). -/
def intOperand (w : IntWidth) (x : Word) : Nat := x.toNat % 2 ^ intBits w

/-- `sval_W(v)` (R8): a W-bit pattern read as two's complement. -/
def sval (w : IntWidth) (v : Nat) : Int :=
  if 2 ^ (intBits w - 1) ≤ v then (v : Int) - 2 ^ intBits w else v

/-- A W-bit pattern in the order of its type: unsigned, or two's complement (R77). -/
def intValue (w : IntWidth) (signed : Bool) (v : Nat) : Int := if signed then sval w v else v

/-- The check of NEXT_INT (R161, R163): max < min in the type's order. -/
def intRangeBad (w : IntWidth) (signed : Bool) (lo hi : Nat) : Bool :=
  decide (intValue w signed hi < intValue w signed lo)

/-- `span = (hi − lo) mod 2^W` (R163). -/
def intSpan (w : IntWidth) (lo hi : Nat) : Nat := (hi + 2 ^ intBits w - lo) % 2 ^ intBits w

/-- A W-bit result as a response value (R85): sign-extended when signed, else zero-extended. -/
def intResult (w : IntWidth) (signed : Bool) (r : Nat) : Word :=
  if signed then BitVec.ofInt 64 (sval w r) else BitVec.ofNat 64 r

/-- The pattern of a float operand (R78): the whole word for binary64, bits [31:0] for binary32. -/
def floatOperand (f : FloatWidth) (x : Word) : Word :=
  match f with
  | .f64 => x
  | .f32 => x &&& 0xFFFFFFFF

/-- The check of FILL_BYTES (R56, R190): the buffer does not fit in the address space, by the exact sum. -/
def bufferTooLong (cfg : Config) (base len : Nat) : Bool := decide (2 ^ cfg.addrW < base + len)

end Sys2Proof.Machine
end

