-- ==== Sys2Proof/Machine/ByteFill.lean ====
section
/-! DEFINITION. The byte filler (43_bytefill.md): FILL_BYTES and GENERATE_BYTES. -/

namespace Sys2Proof.Machine

/-- Byte `j` of a raw word, `x[8j+7:8j]` (R53). -/
def wordByte (x : Word) (j : Nat) : Byte := x.extractLsb' (8 * j) 8

/-- The low `n` bytes of a raw word, low byte first (R191). -/
def lowBytes (x : Word) (n : Nat) : List Byte := (List.range n).map (wordByte x)

/-- The loop of `Fill` (R191): `words` steps for the `remaining` bytes. -/
def fillLoop (cfg : Config) : (words remaining : Nat) → Engine → List Byte × Engine
  | 0, _, e => ([], e)
  | words + 1, remaining, e =>
    let (x, e) := engineStep cfg e
    let n := min 8 remaining
    let (bs, e) := fillLoop cfg words (remaining - n) e
    (lowBytes x n ++ bs, e)

/-- The engine steps of `Fill(L)`: ceil(L / 8) (R193). -/
def fillSteps (len : Nat) : Nat := (len + 7) / 8

/-- `Fill(L)` (R191): the bytes emitted at offsets 0, 1, ..., and the engine after it. -/
def fill (cfg : Config) (len : Nat) (e : Engine) : List Byte × Engine := fillLoop cfg (fillSteps len) len e

/-- FILL_BYTES (R190). The bound check comes before any step or write; a buffer the host memory does not admit whole
has no step at all (R51, R226): the fault says so. The spec is silent on whether a reset behind it frees the block:
DESIGN CHOICE, it does (`resetIfStuck`, log entry 21). -/
def execFillBytes (base len : Word) (s : State) : Host.Outcome State Fault Refusal :=
  whenConstructed s fun s =>
    if len.toNat = 0 then .next (respondOk 0 [] s)
    else if bufferTooLong s.cfg base.toNat len.toNat then .next (raiseFault .bufferBounds s)
    else if admitsRange s.cfg base.toNat len.toNat then
      let (bs, e) := fill s.cfg len.toNat s.engine
      .next (respondOk 0 [] ((s.setEngine e).setMem (writeBytes s.mem base.toNat bs)))
    else .fault .hostWriteRefused

/-- GENERATE_BYTES (R195). -/
def execGenerateBytes (count : Word) (s : State) : Host.Outcome State Fault Refusal :=
  whenConstructed s fun s =>
    let (bs, e) := fill s.cfg count.toNat s.engine
    .next (respondOk 0 bs (s.setEngine e))

end Sys2Proof.Machine
end

