-- ==== Sys2Proof/Machine/Control.lean ====
section
/-! DEFINITION. READ_STATUS and the illegal header (44_control.md). -/

namespace Sys2Proof.Machine

/-- READ_STATUS (R210): the only command that runs while FAULTED = 1. -/
def execReadStatus (s : State) : Host.Outcome State Fault Refusal :=
  .next (respondOk (statusWord s) [] s)

/-- An illegal header (R80, R213): REFUSED while faulted, else IllegalCommand. -/
def execIllegalHeader (s : State) : Host.Outcome State Fault Refusal :=
  unlessFaulted s fun s => .next (raiseFault .illegalCommand s)

end Sys2Proof.Machine
end

