-- ==== Sys2Proof/Machine/Float.lean ====
section
/-! DEFINITION. IEEE 754 binary64 and binary32 in round-to-nearest, ties to even (R9), on patterns. A finite value
is a sign and a number of units, the unit being the least positive subnormal of the format, so all arithmetic
before rounding is exact integer arithmetic. -/

namespace Sys2Proof.Machine

/-- A float value: NaN, an infinity, or `(-1)^neg · units · 2^-unitExp`. -/
inductive FloatVal where
  | nan
  | inf (neg : Bool)
  | fin (neg : Bool) (units : Nat)
  deriving DecidableEq, Repr

/-- The width of the fraction field. -/
def fracBits : FloatWidth → Nat
  | .f64 => 52
  | .f32 => 23

/-- The width of the exponent field. -/
def expBits : FloatWidth → Nat
  | .f64 => 11
  | .f32 => 8

/-- The unit is `2^-unitExp`: 2^-1074 and 2^-149. -/
def unitExp : FloatWidth → Nat
  | .f64 => 1074
  | .f32 => 149

/-- The exponent field of infinities and NaNs. -/
def expAllOnes (f : FloatWidth) : Nat := 2 ^ expBits f - 1

/-- The least number of units beyond the finite values. -/
def overflowUnits (f : FloatWidth) : Nat := 2 ^ (fracBits f + (expAllOnes f - 1))

/-- `f64of`, `f32of` (R9): the value of a pattern. -/
def floatOf (f : FloatWidth) (b : Word) : FloatVal :=
  let frac := b.toNat % 2 ^ fracBits f
  let expo := (b.toNat >>> fracBits f) % 2 ^ expBits f
  let neg := b.getLsbD (fracBits f + expBits f)
  if expo = expAllOnes f then (if frac = 0 then .inf neg else .nan)
  else if expo = 0 then .fin neg frac
  else .fin neg ((2 ^ fracBits f + frac) <<< (expo - 1))

/-- The pattern of a magnitude in units that the format holds exactly: below 2^fracBits units the subnormal pattern,
above it the exponent field `q + 1` with the leading bit taken off. -/
def magnitudeBits (f : FloatWidth) (units : Nat) : Nat :=
  let q := Nat.log2 units - fracBits f
  q * 2 ^ fracBits f + (units >>> q)

/-- The sign bit of a format. -/
def signBit (f : FloatWidth) (neg : Bool) : Nat := if neg then 2 ^ (fracBits f + expBits f) else 0

/-- `bits64`, `bits32` (R9), zero-extended to 64 bits: the pattern of a value. A NaN is never the result of a
command (R169), and its pattern here is the quiet one (log entry 16). -/
def floatBits (f : FloatWidth) : FloatVal → Word
  | .nan => BitVec.ofNat 64 (expAllOnes f * 2 ^ fracBits f + 2 ^ (fracBits f - 1))
  | .inf neg => BitVec.ofNat 64 (signBit f neg + expAllOnes f * 2 ^ fracBits f)
  | .fin neg units => BitVec.ofNat 64 (signBit f neg + magnitudeBits f units)

/-- `n / 2^d` rounded to the nearest integer, ties to even. -/
def rneShift (n d : Nat) : Nat :=
  let m := n >>> d
  let rem := n % 2 ^ d
  if 2 ^ d < 2 * rem ∨ 2 * rem = 2 ^ d ∧ m % 2 = 1 then m + 1 else m

/-- How many low bits of units a magnitude of `n / 2^k` units loses to keep `fracBits + 1` significant bits. -/
def excessBits (f : FloatWidth) (n k : Nat) : Nat := Nat.log2 n - (k + fracBits f)

/-- `n / 2^k` units rounded to the precision of the format, in units: nearest, ties to even, no exponent limit. -/
def roundedUnits (f : FloatWidth) (n k : Nat) : Nat :=
  rneShift n (k + excessBits f n k) <<< excessBits f n k

/-- `rne64`, `rne32` (R9) of `(-1)^neg · n / 2^k` units: the nearest value, ties to even, an infinity beyond the
finite values. -/
def roundFloat (f : FloatWidth) (neg : Bool) (n k : Nat) : FloatVal :=
  if overflowUnits f ≤ roundedUnits f n k then .inf neg else .fin neg (roundedUnits f n k)

/-- A signed number of units. -/
def signedUnits (neg : Bool) (units : Nat) : Int := if neg then -(units : Int) else units

/-- `a + b`, rounded to nearest even (R9). An exact zero sum is +0 unless both operands are −0. -/
def floatAdd (f : FloatWidth) : FloatVal → FloatVal → FloatVal
  | .nan, _ => .nan
  | _, .nan => .nan
  | .inf na, .inf nb => if na = nb then .inf na else .nan
  | .inf na, .fin _ _ => .inf na
  | .fin _ _, .inf nb => .inf nb
  | .fin na ua, .fin nb ub =>
    let sum := signedUnits na ua + signedUnits nb ub
    if sum = 0 then .fin (na && nb) 0 else roundFloat f (decide (sum < 0)) sum.natAbs 0

/-- The negation of a float. -/
def floatNeg : FloatVal → FloatVal
  | .nan => .nan
  | .inf neg => .inf (!neg)
  | .fin neg units => .fin (!neg) units

/-- `a - b`, rounded to nearest even (R9). -/
def floatSub (f : FloatWidth) (x y : FloatVal) : FloatVal := floatAdd f x (floatNeg y)

/-- `a * b`, rounded to nearest even (R9). -/
def floatMul (f : FloatWidth) : FloatVal → FloatVal → FloatVal
  | .nan, _ => .nan
  | _, .nan => .nan
  | .inf na, .inf nb => .inf (na != nb)
  | .inf na, .fin nb ub => if ub = 0 then .nan else .inf (na != nb)
  | .fin na ua, .inf nb => if ua = 0 then .nan else .inf (na != nb)
  | .fin na ua, .fin nb ub => roundFloat f (na != nb) (ua * ub) (unitExp f)

/-- IEEE `a < b` (R9): false with a NaN, −0 and +0 equal. -/
def floatLt : FloatVal → FloatVal → Bool
  | .nan, _ => false
  | _, .nan => false
  | .inf na, .inf nb => na && !nb
  | .inf na, .fin _ _ => na
  | .fin _ _, .inf nb => !nb
  | .fin na ua, .fin nb ub => decide (signedUnits na ua < signedUnits nb ub)

/-- IEEE `a = b` (R9). -/
def floatEq : FloatVal → FloatVal → Bool
  | .nan, _ => false
  | _, .nan => false
  | .inf na, .inf nb => na == nb
  | .inf _, .fin _ _ => false
  | .fin _ _, .inf _ => false
  | .fin na ua, .fin nb ub => decide (signedUnits na ua = signedUnits nb ub)

/-- IEEE `a ≤ b` (R9). -/
def floatLe (x y : FloatVal) : Bool := floatLt x y || floatEq x y

/-- Whether a value is an infinity. -/
def isInfinite : FloatVal → Bool
  | .inf _ => true
  | .nan => false
  | .fin _ _ => false

/-- `Unit64(x)`, `Unit32(x)` (R168): the top fracBits + 1 bits of the word times 2^-(fracBits + 1), exact. -/
def unitFloat (f : FloatWidth) (x : Word) : FloatVal :=
  .fin false ((x.toNat >>> (63 - fracBits f)) <<< (unitExp f - (fracBits f + 1)))

end Sys2Proof.Machine
end

