-- ==== Sys2Proof/Machine/Sampler.lean ====
section
/-! DEFINITION. The uniform sampler (42_sampler.md): NEXT_INT, NEXT_DOUBLE and NEXT_FLOAT. -/

namespace Sys2Proof.Machine

/-- At least the number of engine states that steps from `e` can reach: 2^64 per state word, and for Variant C every
MTI. An engine that has rejected this many words has come back to a state it was in, so its rejection loop never
ends: the loops below are cut at no earlier point (R165, D36, log entry 13). -/
def engineStateBound (cfg : Config) : Engine → Nat
  | .a _ _ => 2 ^ 128
  | .b _ _ _ _ => 2 ^ 256
  | .c ws mti => 2 ^ (64 * ws.length) * (mti + cfg.cN + 2)

/-! ## Integers -/

/-- `hi64(p)` (R8). -/
def hi64 (p : Nat) : Nat := p / 2 ^ 64

/-- `lo64(p)` (R8). -/
def lo64 (p : Nat) : Nat := p % 2 ^ 64

/-- `mulfull(x, s)` (R8), exact. -/
def mulfull (x : Word) (s : Nat) : Nat := x.toNat * s

/-- The rejection threshold `t = (2^64 − s) mod s` (R162). -/
def rejectThreshold (s : Nat) : Nat := (2 ^ 64 - s) % s

/-- The loop `while l < t` of R162, from the product `m` of the last word: the accepted result and the engine, or none
when the fuel runs out. -/
def rejectLoop (cfg : Config) (s : Nat) : (fuel m : Nat) → Engine → Option (Nat × Engine)
  | 0, m, e => if lo64 m < rejectThreshold s then none else some (hi64 m, e)
  | fuel + 1, m, e =>
    if lo64 m < rejectThreshold s then
      rejectLoop cfg s fuel (mulfull (engineStep cfg e).1 s) (engineStep cfg e).2
    else some (hi64 m, e)

/-- `UniformBelow(s)` (R162): none when no accepted word ever comes. -/
def uniformBelow (cfg : Config) (s : Nat) (e : Engine) : Option (Nat × Engine) :=
  let (x, e) := engineStep cfg e
  let m := mulfull x s
  if lo64 m < s then rejectLoop cfg s (engineStateBound cfg e) m e else some (hi64 m, e)

/-- The offset NEXT_INT draws for a span (R163): the raw word for the full 64-bit range, else below span + 1. -/
def drawOffset (cfg : Config) (span : Nat) (e : Engine) : Option (Nat × Engine) :=
  if span = 2 ^ 64 - 1 then some ((engineStep cfg e).1.toNat, (engineStep cfg e).2)
  else uniformBelow cfg (span + 1) e

/-- NEXT_INT (R163). The fault says that the loop never ends; a reset behind the command frees the block, a DESIGN
CHOICE (`resetIfStuck`, log entry 21). -/
def execNextInt (w : IntWidth) (signed : Bool) (lo hi : Word) (s : State) : Host.Outcome State Fault Refusal :=
  whenConstructed s fun s =>
    let lo := intOperand w lo
    let hi := intOperand w hi
    if intRangeBad w signed lo hi then .next (raiseFault .invalidRange s)
    else
      match drawOffset s.cfg (intSpan w lo hi) s.engine with
      | none => .fault .neverAccepts
      | some (off, e) =>
        .next (respondOk (intResult w signed ((lo + off) % 2 ^ intBits w)) [] (s.setEngine e))

/-! ## Floating point -/

/-- NEXT_DOUBLE (R167). -/
def execNextDouble (s : State) : Host.Outcome State Fault Refusal :=
  whenConstructed s fun s =>
    let (x, s) := stepEngine s
    .next (respondOk (floatBits .f64 (unitFloat .f64 x)) [] s)

/-- The checks of NEXT_FLOAT (R169, R171): a NaN, min > max, an infinite bound, or a span that overflows. -/
def floatRangeBad (f : FloatWidth) (lo hi : FloatVal) : Bool :=
  !floatLe lo hi || isInfinite lo || isInfinite hi || isInfinite (floatSub f hi lo)

/-- The affine map of R170: `lo + (u · d)`, the product first, both rounded. -/
def affine (f : FloatWidth) (lo d : FloatVal) (x : Word) : FloatVal :=
  floatAdd f lo (floatMul f (unitFloat f x) d)

/-- The loop of NEXT_FLOAT (R169, R170): draw until the result is below `hi`, or none when the fuel runs out. -/
def floatLoop (cfg : Config) (f : FloatWidth) (lo hi d : FloatVal) : (fuel : Nat) → Engine → Option (FloatVal × Engine)
  | 0, _ => none
  | fuel + 1, e =>
    let (x, e) := engineStep cfg e
    let r := affine f lo d x
    if floatLt r hi then some (r, e) else floatLoop cfg f lo hi d fuel e

/-- NEXT_FLOAT (R169). In the degenerate range the answer is MIN's own pattern after one discarded step (R171). The
fault is as in NEXT_INT (log entry 21). -/
def execNextFloat (f : FloatWidth) (lo hi : Word) (s : State) : Host.Outcome State Fault Refusal :=
  whenConstructed s fun s =>
    let lov := floatOf f (floatOperand f lo)
    let hiv := floatOf f (floatOperand f hi)
    if floatRangeBad f lov hiv then .next (raiseFault .invalidRange s)
    else if floatEq lov hiv then
      let (_, s) := stepEngine s
      .next (respondOk (floatOperand f lo) [] s)
    else
      match floatLoop s.cfg f lov hiv (floatSub f hiv lov) (engineStateBound s.cfg s.engine) s.engine with
      | none => .fault .neverAccepts
      | some (r, e) => .next (respondOk (floatBits f r) [] (s.setEngine e))

end Sys2Proof.Machine
end

