-- ==== Sys2Proof/Machine/Dispatch.lean ====
section
/-! DEFINITION. The dispatch of R213: one arm per command, each one call of its meaning. -/

namespace Sys2Proof.Machine

def exec (i : Instr) (s : State) : Host.Outcome State Fault Refusal :=
  match i with
  | .constructSeeded v seed => Sys2Proof.Machine.execConstructSeeded v seed s
  | .constructEntropy v => Sys2Proof.Machine.execConstructEntropy v s
  | .nextRaw => Sys2Proof.Machine.execNextRaw s
  | .nextDouble => Sys2Proof.Machine.execNextDouble s
  | .nextInt w signed lo hi => Sys2Proof.Machine.execNextInt w signed lo hi s
  | .nextFloat f lo hi => Sys2Proof.Machine.execNextFloat f lo hi s
  | .fillBytes base len => Sys2Proof.Machine.execFillBytes base len s
  | .generateBytes count => Sys2Proof.Machine.execGenerateBytes count s
  | .readStatus => Sys2Proof.Machine.execReadStatus s
  | .readMin => Sys2Proof.Machine.execReadMin s
  | .readMax => Sys2Proof.Machine.execReadMax s

end Sys2Proof.Machine
end

