-- ==== Sys2Proof/Machine/Step.lean ====
section
/-! DEFINITION. One step: the next command, illegal header or reset at the port (R212, R213, R250). -/

namespace Sys2Proof.Machine

/-- One atomic transition of the block (R212). While there is nothing to execute the block waits and nothing changes
(R83, R238, log entry 7). A command that is stuck gives way to a reset behind it, and to nothing else: the model's
choice (log entry 21). -/
def step (s : State) : Host.Outcome State Fault Refusal :=
  match fetch s.inputs with
  | .waiting => .next s
  | .reset rest => .next (assertReset (s.setInputs rest))
  | .illegal rest => execIllegalHeader (s.setInputs rest)
  | .command i rest => resetIfStuck s rest (exec i (s.setInputs rest))

/-- The words of the one command at the head of a list of words: its header and operand words, or the one word of an
illegal header. -/
def oneCommand (ws : List Word) : List Word :=
  match decode ws with
  | .command i _ => ws.take (1 + i.operands.length)
  | .illegalHeader => ws.take 1
  | .incomplete => ws

/-- `s` with the words of the instruction whose bits are `w` sent before all else at the command port: the block has
no program counter, and its program is what the host sends (R22, log entry 6). -/
def State.withFetchWord (s : State) (nbits w : Nat) : State :=
  s.setInputs ((oneCommand (tableWords nbits w)).map HostEvent.word ++ s.inputs)

end Sys2Proof.Machine
end

