-- ==== Sys2Proof/Machine/Assembler.lean ====
section
/-! DEFINITION. The assembler's suffixes and pseudo-commands (R86, R87). The block never sees them; a pseudo-command
stands for one command. -/

namespace Sys2Proof.Machine

/-- The mnemonics (R72). -/
inductive Mnemonic where
  | constructSeeded
  | constructEntropy
  | nextRaw
  | nextDouble
  | nextInt
  | nextFloat
  | fillBytes
  | generateBytes
  | readStatus
  | readMin
  | readMax
  deriving DecidableEq, Repr

/-- The suffixes (R86). -/
inductive Suffix where
  | var (v : Variant)
  | int (w : IntWidth) (signed : Bool)
  | float (f : FloatWidth)
  deriving DecidableEq, Repr

/-- The header of a mnemonic with or without a suffix (R86): a command without a suffix has its fields zero, and a
suffix the opcode does not take is an assembly error. -/
def assembleHeader : Mnemonic → Option Suffix → Option Header
  | .constructSeeded, none => some (.constructSeeded .a)
  | .constructSeeded, some (.var v) => some (.constructSeeded v)
  | .constructEntropy, none => some (.constructEntropy .a)
  | .constructEntropy, some (.var v) => some (.constructEntropy v)
  | .nextRaw, none => some .nextRaw
  | .nextDouble, none => some .nextDouble
  | .nextInt, none => some (.nextInt .w8 false)
  | .nextInt, some (.int w signed) => some (.nextInt w signed)
  | .nextFloat, none => some (.nextFloat .f64)
  | .nextFloat, some (.float f) => some (.nextFloat f)
  | .fillBytes, none => some .fillBytes
  | .generateBytes, none => some .generateBytes
  | .readStatus, none => some .readStatus
  | .readMin, none => some .readMin
  | .readMax, none => some .readMax
  | _, some _ => none

/-- A line of assembler (R86): mnemonic, suffix, operands as integers, a negative one as its two's-complement
pattern. The number of operands is the opcode's (R76). -/
def assemble (m : Mnemonic) (suffix : Option Suffix) (ops : List Int) : Option Instr :=
  match assembleHeader m suffix with
  | none => none
  | some hd =>
    if ops.length = hd.operandCount then some (hd.withOperands (ops.map (BitVec.ofInt 64))) else none

/-- The pseudo-commands (R87). -/
inductive Pseudo where
  | construct (v : Variant) (seed : List Word)
  | nextBool
  | nextUnitF32
  | nextU64
  deriving DecidableEq, Repr

/-- The command a pseudo-command stands for (R87): `CONSTRUCT.v` without operands is CONSTRUCT_ENTROPY. -/
def expandPseudo : Pseudo → Instr
  | .construct v [] => .constructEntropy v
  | .construct v (w :: ws) => .constructSeeded v (w :: ws)
  | .nextBool => .nextInt .w8 false 0 1
  | .nextUnitF32 => .nextFloat .f32 0x00000000 0x3F800000
  | .nextU64 => .nextInt .w64 false 0 0xFFFFFFFFFFFFFFFF

end Sys2Proof.Machine
end

