-- ==== Sys2Proof/Safety.lean ====
section
/-! DEFINITION. What the machine keeps: the invariant of its states, and what counts as a safe outcome. -/

namespace Sys2Proof.Machine

/-- The ranges R6, R8 and R50 give the parameters: shifts of 0..63 ("no rule of this spec shifts by 64 or more"), a
rotation of 1..63, at least one state word of Variant C, an address width of 1..64. -/
abbrev configWf (cfg : Config) : Prop :=
  cfg.aShift1 < 64 ∧ cfg.aShift2 < 64 ∧ cfg.aShift3 < 64 ∧ cfg.bShift < 64 ∧ 1 ≤ cfg.bRot ∧ cfg.bRot < 64 ∧
    cfg.cU < 64 ∧ cfg.cS < 64 ∧ cfg.cT < 64 ∧ cfg.cL < 64 ∧ 1 ≤ cfg.cN ∧ 1 ≤ cfg.addrW ∧ cfg.addrW ≤ 64

/-- The engine state of Variant C has C_N words (R31) and an index MTI of 0..C_N (R32). -/
def engineWf (cfg : Config) : Engine → Bool
  | .a _ _ => true
  | .b _ _ _ _ => true
  | .c ws mti => ws.length == cfg.cN && decide (mti ≤ cfg.cN)

/-- While CONSTRUCTED = 0, DEGRADED is 0 and VARIANT is 0 (R24). -/
def statusWf (s : State) : Bool :=
  s.status.constructed || (!s.status.degraded && engineVariant s.engine == .a)

/-- Every listed byte of the host memory has an address of the address space (R50). -/
abbrev memInSpace (s : State) : Prop := ∀ p ∈ s.mem, p.1 < 2 ^ s.cfg.addrW

/-- The invariant of the machine: the parameters are in their ranges, the engine state has the shape of its
variant, STATUS is one R24 allows, and the memory is canonical and inside the address space. -/
abbrev State.Inv (s : State) : Prop :=
  configWf s.cfg ∧ engineWf s.cfg s.engine = true ∧ statusWf s = true ∧ Memory.wf s.mem ∧ memInSpace s

/-- The draw commands (R211): every command that can call `Step()`. -/
def isDraw : Instr → Bool
  | .constructSeeded _ _ => false
  | .constructEntropy _ => false
  | .nextRaw => true
  | .nextDouble => true
  | .nextInt _ _ _ _ => true
  | .nextFloat _ _ _ => true
  | .fillBytes _ _ => true
  | .generateBytes _ => true
  | .readStatus => false
  | .readMin => false
  | .readMax => false

/-- A draw command runs its body: an engine is constructed and the block is not faulted (R213). -/
abbrev ready (s : State) : Prop := s.status.fault = none ∧ s.status.constructed = true

/-- `UniformBelow(s)` takes the word: its low product half is not below the threshold (R162). -/
abbrev accepted (s : Nat) (x : Word) : Prop := rejectThreshold s ≤ lo64 (mulfull x s)

/-- A safe outcome: the command ends with a response, and the machine goes on. -/
def answersNext : Host.Outcome State Fault Refusal → Bool
  | .next _ => true
  | .fault _ => false
  | .refused _ => false

end Sys2Proof.Machine
end

