-- ==== Sys2Proof/Certificates/Slice0/Obligations.lean ====
section
/-! DEFINITION. The statements about the model, from the spec's numbered rules. -/

open Sys2Proof Sys2Proof.Machine

/-! ## Decoding and encoding -/

/-- R70, R76, R82: decoding the words of any well-formed command, whatever follows them, gives the command back
with every operand, and leaves what follows. -/
def Obligations.DecodeReadsBackEveryEncodedCommand : Prop :=
  ∀ (i : Instr) (rest : List Word), i.wellFormed = true → decode (encode i ++ rest) = .command i rest

/-- R70, R80, R82: what decodes is the encoding of a well-formed command, word for word, so no bit of a header or an
operand is dropped. -/
def Obligations.EveryDecodedCommandIsItsEncoding : Prop :=
  ∀ (ws : List Word) (i : Instr) (rest : List Word),
    decode ws = .command i rest → ws = encode i ++ rest ∧ i.wellFormed = true

/-- R88: a header word is legal exactly when the table of R88 lists it, and has the form listed there. -/
def Obligations.LegalHeadersAreExactlyTheListedOnes : Prop :=
  ∀ (h : Word) (hd : Header), decodeHeader h = some hd ↔ (h, hd) ∈ legalHeaders

/-- 95_test_vectors.md section 2.1 and the programs of section 3: some command words of every family. -/
def Obligations.SpecCommandWordsDecode : Prop :=
  decode [0x0101, 1, 2, 3, 4] = .command (.constructSeeded .b [1, 2, 3, 4]) [] ∧
  decode [0x0202] = .command (.constructEntropy .c) [] ∧
  decode [0x0010, 7] = .command .nextRaw [7] ∧
  decode [0x1C12, 5, 6] = .command (.nextInt .w64 true 5 6) [] ∧
  decode [0x2013, 0xBF800000, 0x3F800000] = .command (.nextFloat .f32 0xBF800000 0x3F800000) [] ∧
  decode [0x0020, 0x1000, 9] = .command (.fillBytes 0x1000 9) [] ∧
  decode [0x0021, 0] = .command (.generateBytes 0) [] ∧
  decode [0x0030] = .command .readStatus [] ∧
  decode [0x0301] = .illegalHeader ∧ decode [0x4010] = .illegalHeader ∧ decode [0x2012] = .illegalHeader

/-! ## The step: commands, waiting, illegal headers, reset -/

/-- R212, R213: when the words of a well-formed command stand at the head of the command port, the step is `exec` of
that command with its words, and no others, consumed. A command that is stuck (R226, U10, U16) has no step: the step is
then the next reset behind it, the words before that reset discarded, or else the stop; that the reset is taken is the
model's choice (log entry 21). -/
def Obligations.StepRunsTheCommandAtThePort : Prop :=
  ∀ (s : State) (i : Instr) (tail : List HostEvent),
    i.wellFormed = true → s.inputs = (encode i).map .word ++ tail →
    (∀ t, exec i (s.setInputs tail) = .next t → step s = .next t) ∧
    (∀ r, exec i (s.setInputs tail) = .refused r → step s = .refused r) ∧
    (∀ f, exec i (s.setInputs tail) = .fault f →
      (∀ ws : List Word, tail = ws.map .word → step s = .fault f) ∧
      (∀ (ws : List Word) (later : List HostEvent), tail = ws.map .word ++ .reset :: later →
        step s = .next (assertReset (s.setInputs later))))

/-- R80, R222, R223: an illegal header consumes one word; it raises IllegalCommand (cause 2), or is REFUSED while the
block is faulted, and changes nothing else. -/
def Obligations.IllegalHeaderIsConsumedAlone : Prop :=
  ∀ (s : State) (h : Word) (tail : List HostEvent),
    decodeHeader h = none → s.inputs = .word h :: tail →
    (s.status.fault = none → step s = .next { s with
      inputs := tail
      status := { s.status with fault := some .illegalCommand }
      responses := s.responses ++ [{ code := .fault, value := 2, bytes := [] }] }) ∧
    (s.status.fault.isSome = true → step s = .next { s with
      inputs := tail
      responses := s.responses ++ [{ code := .refused, value := 0, bytes := [] }] })

/-- R83: after a legal header with fewer words than its operands behind it, the block waits: nothing changes and no
response is sent. -/
def Obligations.BlockWaitsForMissingOperands : Prop :=
  ∀ (s : State) (h : Word) (hd : Header) (ws : List Word),
    decodeHeader h = some hd → ws.length < hd.operandCount → s.inputs = (h :: ws).map .word → step s = .next s

/-- R250: reset discards a partly received command without a response, STATUS reads 0, the port goes on with what
comes after, and the host memory and the responses already sent stay. That the draws delivered and not yet read
(`entropyIn`, log entry 11, and `timeIn`, log entry 12) and the last timestamp (`lastTime`, log entry 12) stay too is
the model's choice, not R250's. -/
def Obligations.ResetClearsStatusAndKeepsMemory : Prop :=
  ∀ (s : State) (ws : List Word) (tail : List HostEvent),
    decode ws = .incomplete → s.inputs = ws.map .word ++ .reset :: tail →
    ∃ t, step s = .next t ∧ statusWord t = 0 ∧ t.status.fault = none ∧ t.inputs = tail ∧ t.mem = s.mem ∧
      t.responses = s.responses ∧ t.cfg = s.cfg ∧ t.entropyIn = s.entropyIn ∧ t.timeIn = s.timeIn ∧
      t.lastTime = s.lastTime

/-- R36, R251: right after reset STATUS reads 0 and the block runs nothing of its own. -/
def Obligations.ResetStateReadsZeroStatusAndIdles : Prop :=
  statusWord State.reset = 0 ∧ step State.reset = .next State.reset

/-! ## Faults and responses -/

/-- R223: while FAULTED = 1 every command but READ_STATUS, its operand words consumed, answers (REFUSED, 0, []) and has
no other effect; READ_STATUS still answers STATUS. -/
def Obligations.FaultedBlockRefusesAllButReadStatus : Prop :=
  ∀ (s : State) (i : Instr) (tail : List HostEvent),
    s.status.fault.isSome = true → i.wellFormed = true → s.inputs = (encode i).map .word ++ tail →
    step s = .next { s with
      inputs := tail
      responses := s.responses ++
        [if i = .readStatus then { code := .ok, value := statusWord s, bytes := [] }
         else { code := .refused, value := 0, bytes := [] }] }

/-- R28, R29, R223: only reset clears FAULTED, and CAUSE keeps the first fault: in any other step that goes on, a
fault that is there stays as it is. -/
def Obligations.OnlyResetClearsTheFault : Prop :=
  ∀ (s t : State) (c : Cause),
    s.status.fault = some c → step s = .next t → (∀ rest, fetch s.inputs ≠ .reset rest) → t.status.fault = some c

/-- R224, R222: a step that raises a fault changes FAULTED and CAUSE, consumes the words of the command, or the one word
of the illegal header, that stands at the port, sends the FAULT response with the cause code, and changes nothing
else. -/
def Obligations.FaultsArePrecise : Prop :=
  ∀ (s t : State) (c : Cause),
    s.status.fault = none → step s = .next t → t.status.fault = some c →
    ∃ rest, (fetch s.inputs = .illegal rest ∨ ∃ i, fetch s.inputs = .command i rest) ∧ t = { s with
      inputs := rest
      status := { s.status with fault := some c }
      responses := s.responses ++ [{ code := .fault, value := BitVec.ofNat 64 (causeCode c), bytes := [] }] }

/-- R211: a draw command with CONSTRUCTED = 0 raises NotConstructed (cause 3) before anything else, a zero length
included; no other well-formed command then raises a fault. -/
def Obligations.DrawBeforeConstructionRaisesNotConstructed : Prop :=
  ∀ (s : State) (i : Instr),
    s.status.fault = none → s.status.constructed = false →
    (isDraw i = true → exec i s = .next { s with
      status := { s.status with fault := some .notConstructed }
      responses := s.responses ++ [{ code := .fault, value := 3, bytes := [] }] }) ∧
    (isDraw i = false → i.wellFormed = true → ∃ t, exec i s = .next t ∧ t.status.fault = none)

/-- R84: a command that is finished sends exactly one response, after all earlier ones; BYTES is empty except in the OK
response of GENERATE_BYTES, a FAULT response carries the cause code, a REFUSED one carries 0. CODE reads 2 when the block
was faulted and the command is not READ_STATUS, else 1 when the command raised a fault, else 0. -/
def Obligations.EveryFinishedCommandSendsOneResponse : Prop :=
  ∀ (s t : State) (i : Instr), exec i s = .next t →
    ∃ r, t.responses = s.responses ++ [r] ∧
      (r.bytes ≠ [] → r.code = .ok ∧ ∃ n, i = .generateBytes n) ∧
      (r.code = .fault → ∃ c, t.status.fault = some c ∧ r.value = BitVec.ofNat 64 (causeCode c)) ∧
      (r.code = .refused → r.value = 0) ∧
      codeNumber r.code =
        if i ≠ .readStatus ∧ s.status.fault.isSome = true then 2
        else if s.status.fault = none ∧ t.status.fault.isSome = true then 1 else 0

/-! ## STATUS -/

/-- R30: the reserved bits 7:5 and 63:12 read as zero. -/
def Obligations.ReservedStatusBitsReadZero : Prop :=
  ∀ s : State, (statusWord s).extractLsb' 5 3 = 0 ∧ (statusWord s).extractLsb' 12 52 = 0

/-- R24: each field of STATUS stands at its bits. -/
def Obligations.StatusFieldsStandAtTheirBits : Prop :=
  ∀ s : State,
    (statusWord s).getLsbD 0 = s.status.constructed ∧
    (statusWord s).extractLsb' 1 2 = (if s.status.constructed then
      (match engineVariant s.engine with | .a => 0 | .b => 1 | .c => 2) else 0) ∧
    (statusWord s).getLsbD 3 = s.status.degraded ∧
    (statusWord s).getLsbD 4 = s.status.fault.isSome ∧
    (statusWord s).extractLsb' 8 4 = (match s.status.fault with
      | none => 0
      | some .invalidRange => 1
      | some .illegalCommand => 2
      | some .notConstructed => 3
      | some .bufferBounds => 4)

/-- R210: READ_STATUS answers STATUS, in every state, faulted or not, and changes nothing. -/
def Obligations.ReadStatusAnswersTheStatusWord : Prop :=
  ∀ s : State, exec .readStatus s = .next { s with
    responses := s.responses ++ [{ code := .ok, value := statusWord s, bytes := [] }] }

/-- R34, R138, R139: READ_MIN answers 0 and READ_MAX answers 2^64 − 1, whatever the engine, constructed or not. -/
def Obligations.ReadMinAndReadMaxAnswerTheBounds : Prop :=
  ∀ s : State, s.status.fault = none →
    exec .readMin s = .next { s with responses := s.responses ++ [{ code := .ok, value := 0, bytes := [] }] } ∧
    exec .readMax s = .next { s with
      responses := s.responses ++ [{ code := .ok, value := BitVec.ofNat 64 (2 ^ 64 - 1), bytes := [] }] }

/-! ## Construction and seeding -/

/-- R135, R25–R27: CONSTRUCT_SEEDED builds the engine of its variant from its seed, sets CONSTRUCTED, VARIANT and
DEGRADED = 0, so STATUS reads 1 + 2 · VAR, and answers OK. A list of another length is no command (log entry 14). -/
def Obligations.ConstructSeededBuildsTheEngine : Prop :=
  ∀ (v : Variant) (seed : List Word) (s : State), s.status.fault = none →
    (seed.length = v.seedCount → ∃ t, exec (.constructSeeded v seed) s = .next t ∧
      t = { s with
        engine := constructEngine s.cfg v seed
        status := { constructed := true, degraded := false, fault := none }
        responses := s.responses ++ [{ code := .ok, value := 0, bytes := [] }] } ∧
      statusWord t = (match v with | .a => 1 | .b => 3 | .c => 5)) ∧
    (seed.length ≠ v.seedCount → exec (.constructSeeded v seed) s = .refused .illFormed)

/-- R136, R105: CONSTRUCT_ENTROPY gathers K(VAR) seed words, builds the engine from them, sets DEGRADED when a sample
was unavailable, and answers OK in either case. -/
def Obligations.ConstructEntropyBuildsFromGatheredSeed : Prop :=
  ∀ (v : Variant) (s : State), s.status.fault = none →
    exec (.constructEntropy v) s = .next { (gatherSeed v.seedCount s).2.2 with
      engine := constructEngine s.cfg v (gatherSeed v.seedCount s).1
      status := { constructed := true, degraded := (gatherSeed v.seedCount s).2.1, fault := none }
      responses := s.responses ++ [{ code := .ok, value := 0, bytes := [] }] }

/-- R103, R104: with samples and non-decreasing timestamps delivered, the seed words are made in order, each of its own
sample and its own timestamp; `degraded` says whether a sample was invalid; only those draws are taken. -/
def Obligations.GatherSeedReadsTheDrawsInOrder : Prop :=
  ∀ (s : State) (xs xs' : List EntropySample) (ts ts' : List Word),
    s.entropyIn = xs ++ xs' → s.timeIn = ts ++ ts' → xs.length = ts.length →
    (s.lastTime :: ts).Pairwise (fun t u => t.toNat ≤ u.toNat) →
    gatherSeed xs.length s = (List.zipWith seedWordOf xs ts, xs.any (fun x => !x.valid),
      { s with entropyIn := xs', timeIn := ts', lastTime := ts.getLastD s.lastTime })

/-- R103: the seed word is `(entropy32 << 32) | timestamp32`, and the low half of the timestamp alone without a
sample, as numbers. -/
def Obligations.SeedWordIsEntropyOverTimestamp : Prop :=
  ∀ (e : BitVec 32) (t : Word),
    (seedWordOf { valid := true, sample := e } t).toNat = e.toNat * 2 ^ 32 + t.toNat % 2 ^ 32 ∧
    (seedWordOf { valid := false, sample := e } t).toNat = t.toNat % 2 ^ 32

/-- R102: a timestamp read is not below the one before it, within a command and across the steps of the machine. That
a delivered value below the last is read as the last is the model's choice (log entry 12). -/
def Obligations.TimestampReadsNeverDecrease : Prop :=
  (∀ s : State, s.lastTime.toNat ≤ (readTimestamp s).1.toNat ∧ (readTimestamp s).2.lastTime = (readTimestamp s).1) ∧
  (∀ s t : State, step s = .next t → s.lastTime.toNat ≤ t.lastTime.toNat)

/-- R132, R133, R254: a constructed engine is the loaded seed after exactly 256 steps of its variant; loading copies the
seed words in order for A and B, and runs InitC of the one seed word for C. -/
def Obligations.ConstructionRunsExactly256Steps : Prop :=
  (∀ (cfg : Config) (v : Variant) (seed : List Word),
    constructEngine cfg v seed = (fun e => (engineStep cfg e).2)^[256] (loadSeed cfg v seed) ∧
    engineVariant (constructEngine cfg v seed) = v) ∧
  (∀ (cfg : Config) (x0 x1 x2 x3 : Word),
    loadSeed cfg .a [x0, x1] = .a x0 x1 ∧
    loadSeed cfg .b [x0, x1, x2, x3] = .b x0 x1 x2 x3 ∧
    loadSeed cfg .c [x0] = initC cfg x0)

/-- R134: the all-zero seed is accepted for every variant; it gives A and B the all-zero state for ever, whose every raw
word is 0, and InitC(0) has a word that is not 0. -/
def Obligations.AllZeroSeedIsAccepted : Prop :=
  (∀ (v : Variant) (s : State), s.status.fault = none →
    ∃ t, exec (.constructSeeded v (List.replicate v.seedCount 0)) s = .next t ∧ t.status.fault = none) ∧
  (∀ (cfg : Config) (n : Nat),
    constructEngine cfg .a [0, 0] = .a 0 0 ∧ rawWord cfg (constructEngine cfg .a [0, 0]) n = 0 ∧
    constructEngine cfg .b [0, 0, 0, 0] = .b 0 0 0 0 ∧ rawWord cfg (constructEngine cfg .b [0, 0, 0, 0]) n = 0) ∧
  (∀ (cfg : Config), 2 ≤ cfg.cN → ∃ ws, loadSeed cfg .c [0] = .c ws cfg.cN ∧ ∃ w ∈ ws, w ≠ 0)

/-- R131: RegenC rewrites the array in index order; a word read at (i + 1) mod C_N or (i + C_M) mod C_N is the rewritten
one exactly when that index is below i. -/
def Obligations.RegenerationFollowsTheTwistRecurrence : Prop :=
  ∀ (cfg : Config) (ws : List Word), 1 ≤ cfg.cN → ws.length = cfg.cN →
    (regenC cfg ws).length = cfg.cN ∧
    ∀ i, i < cfg.cN →
      let new := regenC cfg ws
      let seen := fun j => if j < i then wordAt new j else wordAt ws j
      let x := (wordAt ws i &&& cfg.cUM) ||| (seen ((i + 1) % cfg.cN) &&& cfg.cLM)
      wordAt new i = seen ((i + cfg.cM) % cfg.cN) ^^^
        (if x.getLsbD 0 then (x >>> 1) ^^^ cfg.cA else x >>> 1)

/-- R120, R140: what a command answers, does to the engine and STATUS, and writes depends on nothing but the
configuration, the engine and STATUS; only CONSTRUCT_ENTROPY, which reads the input ports, is left out. -/
def Obligations.CommandsDependOnEngineAndStatusOnly : Prop :=
  ∀ (i : Instr) (s1 s2 : State),
    (∀ v, i ≠ .constructEntropy v) → s1.cfg = s2.cfg → s1.engine = s2.engine → s1.status = s2.status →
    match exec i s1, exec i s2 with
    | .next t1, .next t2 => t1.cfg = t2.cfg ∧ t1.engine = t2.engine ∧ t1.status = t2.status ∧
        (∃ r, t1.responses = s1.responses ++ [r] ∧ t2.responses = s2.responses ++ [r]) ∧
        (∃ a bs, t1.mem = writeBytes s1.mem a bs ∧ t2.mem = writeBytes s2.mem a bs)
    | .fault f1, .fault f2 => f1 = f2
    | .refused r1, .refused r2 => r1 = r2
    | _, _ => False

/-- R137: NEXT_RAW takes one step and answers its raw word. -/
def Obligations.NextRawAnswersOneRawWord : Prop :=
  ∀ s : State, ready s → exec .nextRaw s = .next { s with
    engine := discardSteps s.cfg 1 s.engine
    responses := s.responses ++ [{ code := .ok, value := rawWord s.cfg s.engine 0, bytes := [] }] }

/-! ## The integer sampler -/

/-- R162, R165: `UniformBelow(s)` is the unbounded loop: it ends at the first accepted word, and has no result exactly
when no word is ever accepted. The model's cut at the number of engine states loses nothing (log entry 13). -/
def Obligations.UniformBelowIsTheUnboundedLoop : Prop :=
  ∀ (cfg : Config) (s : Nat) (e : Engine), 1 ≤ s → s < 2 ^ 64 → ∀ (j : Nat) (e' : Engine),
    uniformBelow cfg s e = some (j, e') ↔
      ∃ n, (∀ k, k < n → ¬ accepted s (rawWord cfg e k)) ∧ accepted s (rawWord cfg e n) ∧
        j = hi64 (mulfull (rawWord cfg e n) s) ∧ e' = discardSteps cfg (n + 1) e

/-- R163: with max ≥ min, NEXT_INT answers min + off for the off of the first accepted word (one step more than the
words rejected before it), and min + the raw word for the full 64-bit range. The span is max − min in the type's order,
and a VALUE, zero- or sign-extended (R85), reads as min + off for every off of the span. -/
def Obligations.NextIntAnswersTheFirstAcceptedWord : Prop :=
  (∀ (w : IntWidth) (signed : Bool) (lo hi : Word) (off : Nat),
    intValue w signed (intOperand w lo) ≤ intValue w signed (intOperand w hi) →
    (intSpan w (intOperand w lo) (intOperand w hi) : Int) =
      intValue w signed (intOperand w hi) - intValue w signed (intOperand w lo) ∧
    (off ≤ intSpan w (intOperand w lo) (intOperand w hi) →
      let v := intResult w signed ((intOperand w lo + off) % 2 ^ intBits w)
      (if signed then v.toInt else (v.toNat : Int)) = intValue w signed (intOperand w lo) + off)) ∧
  ∀ (w : IntWidth) (signed : Bool) (lo hi : Word) (s : State), ready s →
    intValue w signed (intOperand w lo) ≤ intValue w signed (intOperand w hi) →
    (∀ n, intSpan w (intOperand w lo) (intOperand w hi) + 1 < 2 ^ 64 →
      (∀ k, k < n → ¬ accepted (intSpan w (intOperand w lo) (intOperand w hi) + 1) (rawWord s.cfg s.engine k)) →
      accepted (intSpan w (intOperand w lo) (intOperand w hi) + 1) (rawWord s.cfg s.engine n) →
      exec (.nextInt w signed lo hi) s = .next { s with
        engine := discardSteps s.cfg (n + 1) s.engine
        responses := s.responses ++ [{
          code := .ok
          value := intResult w signed ((intOperand w lo + hi64 (mulfull (rawWord s.cfg s.engine n)
            (intSpan w (intOperand w lo) (intOperand w hi) + 1))) % 2 ^ intBits w)
          bytes := [] }] }) ∧
    (intSpan w (intOperand w lo) (intOperand w hi) = 2 ^ 64 - 1 →
      exec (.nextInt w signed lo hi) s = .next { s with
        engine := discardSteps s.cfg 1 s.engine
        responses := s.responses ++ [{
          code := .ok
          value := intResult w signed ((intOperand w lo + (rawWord s.cfg s.engine 0).toNat) % 2 ^ intBits w)
          bytes := [] }] })

/-- R164: every OK result of NEXT_INT, read as its VALUE is (R85), lies in [min, max] in the type's order. -/
def Obligations.NextIntResultLiesInTheRange : Prop :=
  ∀ (w : IntWidth) (signed : Bool) (lo hi : Word) (s t : State), ready s →
    exec (.nextInt w signed lo hi) s = .next t → t.status.fault = none →
    ∃ v : Word, t.responses = s.responses ++ [{ code := .ok, value := v, bytes := [] }] ∧
      intValue w signed (intOperand w lo) ≤ (if signed then v.toInt else (v.toNat : Int)) ∧
      (if signed then v.toInt else (v.toNat : Int)) ≤ intValue w signed (intOperand w hi)

/-- R162, R166: no modulo bias. Each result j of `UniformBelow(s)` comes from exactly floor(2^64 / s) of the accepted
words. -/
def Obligations.EveryResultComesFromEquallyManyWords : Prop :=
  ∀ s j : Nat, 1 ≤ s → s < 2 ^ 64 → j < s →
    ((Finset.range (2 ^ 64)).filter fun x =>
      rejectThreshold s ≤ lo64 (x * s) ∧ hi64 (x * s) = j).card = 2 ^ 64 / s

/-- R162: a range whose size is a power of two never rejects: one step, and the result is the top bits of the word. -/
def Obligations.PowerOfTwoRangesTakeOneStep : Prop :=
  ∀ (cfg : Config) (e : Engine) (k : Nat), k < 64 →
    uniformBelow cfg (2 ^ k) e = some ((rawWord cfg e 0).toNat / 2 ^ (64 - k), discardSteps cfg 1 e)

/-- R161, R163: max < min in the type's order raises InvalidRange (cause 1) with no engine step. -/
def Obligations.NextIntInvertedRangeRaisesInvalidRange : Prop :=
  ∀ (w : IntWidth) (signed : Bool) (lo hi : Word) (s : State), ready s →
    intValue w signed (intOperand w hi) < intValue w signed (intOperand w lo) →
    exec (.nextInt w signed lo hi) s = .next { s with
      status := { s.status with fault := some .invalidRange }
      responses := s.responses ++ [{ code := .fault, value := 1, bytes := [] }] }

/-- R74, R77: NEXT_INT reads bits [W−1:0] of its operands, unsigned or as two's complement, W being 8, 16, 32 or 64, and
ignores the others. -/
def Obligations.NextIntIgnoresUpperOperandBits : Prop :=
  [IntWidth.w8, .w16, .w32, .w64].map intBits = [8, 16, 32, 64] ∧
  (∀ (w : IntWidth) (signed : Bool) (x : Word), intValue w signed (intOperand w x) =
    if signed then (x.setWidth (intBits w)).toInt else ((x.setWidth (intBits w)).toNat : Int)) ∧
  ∀ (w : IntWidth) (signed : Bool) (lo hi lo' hi' : Word) (s : State),
    (∀ k, k < intBits w → lo.getLsbD k = lo'.getLsbD k) → (∀ k, k < intBits w → hi.getLsbD k = hi'.getLsbD k) →
    exec (.nextInt w signed lo hi) s = exec (.nextInt w signed lo' hi') s

/-- R87, R163: the pseudo-command NEXT_U64 returns the raw word: it is NEXT_RAW in every state. -/
def Obligations.NextU64IsNextRaw : Prop :=
  ∀ s : State, exec (expandPseudo .nextU64) s = exec .nextRaw s

/-! ## The float sampler -/

/-- R168: Unit64 and Unit32 are the top 53 and 24 bits of the word times 2^-53 and 2^-24: exact, so their patterns read
back, and below 1. -/
def Obligations.UnitFloatIsExactAndBelowOne : Prop :=
  ∀ (f : FloatWidth) (x : Word),
    floatOf f (floatBits f (unitFloat f x)) = unitFloat f x ∧
    floatLt (unitFloat f x) (.fin false (2 ^ unitExp f)) = true ∧
    ∃ units, unitFloat f x = .fin false units ∧
      units * 2 ^ (fracBits f + 1) = x.toNat / 2 ^ (63 - fracBits f) * 2 ^ unitExp f

/-- R167: NEXT_DOUBLE takes one step and answers the pattern of Unit64 of its raw word. -/
def Obligations.NextDoubleAnswersTheUnitOfOneWord : Prop :=
  ∀ s : State, ready s → exec .nextDouble s = .next { s with
    engine := discardSteps s.cfg 1 s.engine
    responses := s.responses ++
      [{ code := .ok, value := floatBits .f64 (unitFloat .f64 (rawWord s.cfg s.engine 0)), bytes := [] }] }

/-- R167: NEXT_DOUBLE returns the same value and takes the same step as `NEXT_FLOAT.f64 0.0, 1.0`, in every state. -/
def Obligations.NextDoubleIsNextFloatOfTheUnitRange : Prop :=
  ∀ s : State, exec .nextDouble s = exec (.nextFloat .f64 0 0x3FF0000000000000) s

/-- R9: `rneShift n d` is a nearest integer to n / 2^d, and the even one when two are equally near. -/
def Obligations.RneShiftRoundsToNearestTiesToEven : Prop :=
  ∀ n d : Nat,
    2 * ((rneShift n d * 2 ^ d : Int) - n).natAbs ≤ 2 ^ d ∧
    (2 * ((rneShift n d * 2 ^ d : Int) - n).natAbs = 2 ^ d → rneShift n d % 2 = 0)

/-- R9: rounding n / 2^k units to a format gives a value of at most fracBits + 1 significant bits, and no such value is
nearer; `roundFloat` is that value with its sign, and an infinity of that sign exactly from the greatest finite value
plus half its last place on. A sum of finite values is `roundFloat` of the exact signed sum, a zero sum +0 unless both
are −0; a product is `roundFloat` of the exact product; a difference is the sum with the negation; `<` and `=` compare
the exact values. -/
def Obligations.RoundingFindsTheNearestValueOfTheFormat : Prop :=
  (∀ (f : FloatWidth) (na nb : Bool) (ua ub : Nat),
    let a : Int := if na then -ua else ua
    let b : Int := if nb then -ub else ub
    floatAdd f (.fin na ua) (.fin nb ub) =
      (if a + b = 0 then .fin (decide (na = true ∧ ua = 0 ∧ nb = true ∧ ub = 0)) 0
      else roundFloat f (decide (a + b < 0)) (a + b).natAbs 0) ∧
    floatSub f (.fin na ua) (.fin nb ub) = floatAdd f (.fin na ua) (.fin (!nb) ub) ∧
    floatMul f (.fin na ua) (.fin nb ub) = roundFloat f (na != nb) (ua * ub) (unitExp f) ∧
    floatLt (.fin na ua) (.fin nb ub) = decide (a < b) ∧
    floatEq (.fin na ua) (.fin nb ub) = decide (a = b)) ∧
  ∀ (f : FloatWidth) (n k : Nat),
    (∃ m q, m ≤ 2 ^ (fracBits f + 1) ∧ roundedUnits f n k = m * 2 ^ q) ∧
    (∀ m q : Nat, m ≤ 2 ^ (fracBits f + 1) →
      ((roundedUnits f n k * 2 ^ k : Int) - n).natAbs ≤ ((m * 2 ^ q * 2 ^ k : Int) - n).natAbs) ∧
    ∀ neg : Bool, roundFloat f neg n k =
      if (2 ^ (fracBits f + 2) - 1) * 2 ^ (expAllOnes f - 3) * 2 ^ k ≤ n then .inf neg
      else .fin neg (roundedUnits f n k)

/-- R9, R78: reading a pattern and writing its value gives the pattern back, for every pattern of the format that is no
NaN; a pattern of sign, exponent field e and fraction field m reads as binary64 or binary32 gives it, in units of
2^-1074 or 2^-149; an operand of NEXT_FLOAT is the low bits of its word that the format has. -/
def Obligations.FloatPatternsReadBack : Prop :=
  ((fracBits .f64, expBits .f64, unitExp .f64) = (52, 11, 1074) ∧
    (fracBits .f32, expBits .f32, unitExp .f32) = (23, 8, 149)) ∧
  (∀ (f : FloatWidth) (neg : Bool) (e m : Nat), e < 2 ^ expBits f → m < 2 ^ fracBits f →
    floatOf f (BitVec.ofNat 64 ((if neg then 2 ^ (fracBits f + expBits f) else 0) + e * 2 ^ fracBits f + m)) =
      if e = 2 ^ expBits f - 1 then (if m = 0 then .inf neg else .nan)
      else if e = 0 then .fin neg m
      else .fin neg ((2 ^ fracBits f + m) * 2 ^ (e - 1))) ∧
  (∀ (f : FloatWidth) (x : Word), (floatOperand f x).toNat = x.toNat % 2 ^ (fracBits f + expBits f + 1)) ∧
  ∀ (f : FloatWidth) (b : Word), b.toNat < 2 ^ (fracBits f + expBits f + 1) → floatOf f b ≠ .nan →
    floatBits f (floatOf f b) = b

/-- R169, R170: with finite bounds min < max whose span is finite, NEXT_FLOAT answers lo + u·d of the first word for
which that is below hi, after one step more than the words redrawn before it; the product is taken and rounded first. -/
def Obligations.NextFloatAnswersTheFirstResultBelowMax : Prop :=
  ∀ (f : FloatWidth) (lo hi : Word) (s : State) (n : Nat), ready s →
    let lov := floatOf f (floatOperand f lo)
    let hiv := floatOf f (floatOperand f hi)
    let result := fun k =>
      floatAdd f lov (floatMul f (unitFloat f (rawWord s.cfg s.engine k)) (floatSub f hiv lov))
    floatLt lov hiv = true → isInfinite lov = false → isInfinite hiv = false →
    isInfinite (floatSub f hiv lov) = false →
    (∀ k, k < n → floatLt (result k) hiv = false) → floatLt (result n) hiv = true →
    exec (.nextFloat f lo hi) s = .next { s with
      engine := discardSteps s.cfg (n + 1) s.engine
      responses := s.responses ++ [{ code := .ok, value := floatBits f (result n), bytes := [] }] }

/-- R170: every OK result of NEXT_FLOAT with min < max lies in [min, max), as the float its VALUE is the pattern of. -/
def Obligations.NextFloatResultLiesInTheHalfOpenRange : Prop :=
  ∀ (f : FloatWidth) (lo hi : Word) (s t : State), ready s →
    floatLt (floatOf f (floatOperand f lo)) (floatOf f (floatOperand f hi)) = true →
    exec (.nextFloat f lo hi) s = .next t → t.status.fault = none →
    ∃ v : Word, t.responses = s.responses ++ [{ code := .ok, value := v, bytes := [] }] ∧
      floatLe (floatOf f (floatOperand f lo)) (floatOf f v) = true ∧
      floatLt (floatOf f v) (floatOf f (floatOperand f hi)) = true

/-- R171, C7: with min = max, −0 and +0 counted equal, NEXT_FLOAT takes one step and answers MIN's own pattern. -/
def Obligations.NextFloatDegenerateRangeAnswersMin : Prop :=
  ∀ (f : FloatWidth) (lo hi : Word) (s : State), ready s →
    floatEq (floatOf f (floatOperand f lo)) (floatOf f (floatOperand f hi)) = true →
    isInfinite (floatOf f (floatOperand f lo)) = false →
    exec (.nextFloat f lo hi) s = .next { s with
      engine := discardSteps s.cfg 1 s.engine
      responses := s.responses ++ [{ code := .ok, value := floatOperand f lo, bytes := [] }] }

/-- R169, R171: a NaN bound, max < min, an infinite bound or a span that overflows raises InvalidRange (cause 1) with no
engine step. -/
def Obligations.NextFloatBadRangeRaisesInvalidRange : Prop :=
  ∀ (f : FloatWidth) (lo hi : Word) (s : State), ready s →
    let lov := floatOf f (floatOperand f lo)
    let hiv := floatOf f (floatOperand f hi)
    (lov = .nan ∨ hiv = .nan ∨ floatLt hiv lov = true ∨ isInfinite lov = true ∨ isInfinite hiv = true ∨
      isInfinite (floatSub f hiv lov) = true) →
    exec (.nextFloat f lo hi) s = .next { s with
      status := { s.status with fault := some .invalidRange }
      responses := s.responses ++ [{ code := .fault, value := 1, bytes := [] }] }

/-- R165, R170: when no word is ever accepted, NEXT_INT and NEXT_FLOAT never respond: the command is stuck, by name. -/
def Obligations.EndlessRejectionStopsByName : Prop :=
  (∀ (w : IntWidth) (signed : Bool) (lo hi : Word) (s : State), ready s →
    intValue w signed (intOperand w lo) ≤ intValue w signed (intOperand w hi) →
    intSpan w (intOperand w lo) (intOperand w hi) + 1 < 2 ^ 64 →
    (∀ k, ¬ accepted (intSpan w (intOperand w lo) (intOperand w hi) + 1) (rawWord s.cfg s.engine k)) →
    exec (.nextInt w signed lo hi) s = .fault .neverAccepts) ∧
  (∀ (f : FloatWidth) (lo hi : Word) (s : State), ready s →
    let lov := floatOf f (floatOperand f lo)
    let hiv := floatOf f (floatOperand f hi)
    floatLt lov hiv = true → isInfinite lov = false → isInfinite hiv = false →
    isInfinite (floatSub f hiv lov) = false →
    (∀ k, floatLt (affine f lov (floatSub f hiv lov) (rawWord s.cfg s.engine k)) hiv = false) →
    exec (.nextFloat f lo hi) s = .fault .neverAccepts)

/-! ## The byte filler -/

/-- R190, R194, R226: FILL_BYTES by its cases: LEN = 0 does nothing but answer OK; a buffer beyond the address space
raises BufferBounds (cause 4) before any step or write; a buffer with a byte the host memory refuses has no step; any
other is filled, and the command answers OK. -/
def Obligations.FillBytesByItsCases : Prop :=
  ∀ (base len : Word) (s : State), ready s →
    if len = 0 then
      exec (.fillBytes base len) s = .next { s with
        responses := s.responses ++ [{ code := .ok, value := 0, bytes := [] }] }
    else if 2 ^ s.cfg.addrW < base.toNat + len.toNat then
      exec (.fillBytes base len) s = .next { s with
        status := { s.status with fault := some .bufferBounds }
        responses := s.responses ++ [{ code := .fault, value := 4, bytes := [] }] }
    else if ∀ a, base.toNat ≤ a → a < base.toNat + len.toNat → admits s.cfg a = true then
      exec (.fillBytes base len) s = .next { s with
        engine := (fill s.cfg len.toNat s.engine).2
        mem := writeBytes s.mem base.toNat (fill s.cfg len.toNat s.engine).1
        responses := s.responses ++ [{ code := .ok, value := 0, bytes := [] }] }
    else exec (.fillBytes base len) s = .fault .hostWriteRefused

/-- R192: a FILL_BYTES that completes writes the bytes of the fill at offsets 0 .. LEN − 1 of its buffer and no byte
outside it. -/
def Obligations.FillBytesWritesExactlyTheBuffer : Prop :=
  ∀ (base len : Word) (s t : State), ready s → exec (.fillBytes base len) s = .next t → t.status.fault = none →
    ∀ a : Nat, readByte t.mem a =
      if base.toNat ≤ a ∧ a < base.toNat + len.toNat then (fill s.cfg len.toNat s.engine).1[a - base.toNat]?
      else readByte s.mem a

/-- R193: Fill(L) emits L bytes and takes exactly ceil(L / 8) engine steps, none for L = 0. -/
def Obligations.FillTakesCeilingOfEighthSteps : Prop :=
  ∀ (cfg : Config) (len : Nat) (e : Engine),
    (fill cfg len e).1.length = len ∧ (fill cfg len e).2 = discardSteps cfg ((len + 7) / 8) e

/-- R53, R191: byte o of the fill is byte o mod 8 of raw word o / 8, low byte first. -/
def Obligations.FilledBytesAreLittleEndian : Prop :=
  ∀ (cfg : Config) (len : Nat) (e : Engine) (o : Nat), o < len →
    (fill cfg len e).1[o]? = some ((rawWord cfg e (o / 8)).extractLsb' (8 * (o % 8)) 8)

/-- R195, R194: GENERATE_BYTES answers the COUNT bytes of the fill in its response and writes no memory. -/
def Obligations.GenerateBytesAnswersTheFilledBytes : Prop :=
  ∀ (count : Word) (s : State), ready s →
    exec (.generateBytes count) s = .next { s with
      engine := (fill s.cfg count.toNat s.engine).2
      responses := s.responses ++ [{ code := .ok, value := 0, bytes := (fill s.cfg count.toNat s.engine).1 }] }

/-! ## Frames -/

/-- READ_STATUS, READ_MIN and READ_MAX leave everything but the response port as it was. -/
def Obligations.ReadCommandsFrame : Prop :=
  ∀ (i : Instr) (s t : State), i = .readStatus ∨ i = .readMin ∨ i = .readMax → exec i s = .next t →
    t.cfg = s.cfg ∧ t.engine = s.engine ∧ t.status = s.status ∧ t.inputs = s.inputs ∧ t.entropyIn = s.entropyIn ∧
    t.timeIn = s.timeIn ∧ t.lastTime = s.lastTime ∧ t.draws = s.draws ∧
    ∀ a, readByte t.mem a = readByte s.mem a

/-- NEXT_RAW, NEXT_DOUBLE, NEXT_INT, NEXT_FLOAT and GENERATE_BYTES change the engine state within its variant, FAULTED and
CAUSE only by raising a fault, which leaves the engine alone, and the response port; they store nothing. -/
def Obligations.DrawCommandsFrame : Prop :=
  ∀ (i : Instr) (s t : State), isDraw i = true → (∀ base len, i ≠ .fillBytes base len) → exec i s = .next t →
    t.cfg = s.cfg ∧ engineVariant t.engine = engineVariant s.engine ∧
    t.status.constructed = s.status.constructed ∧ t.status.degraded = s.status.degraded ∧
    (t.status.fault = s.status.fault ∨ s.status.fault = none ∧ t.engine = s.engine) ∧
    t.inputs = s.inputs ∧ t.entropyIn = s.entropyIn ∧ t.timeIn = s.timeIn ∧ t.lastTime = s.lastTime ∧
    t.draws = s.draws ∧ ∀ a, readByte t.mem a = readByte s.mem a

/-- FILL_BYTES changes what a draw command changes and the bytes of its buffer: every byte outside
BASE .. BASE + LEN − 1 is as before. -/
def Obligations.FillBytesFrame : Prop :=
  ∀ (base len : Word) (s t : State), exec (.fillBytes base len) s = .next t →
    t.cfg = s.cfg ∧ engineVariant t.engine = engineVariant s.engine ∧
    t.status.constructed = s.status.constructed ∧ t.status.degraded = s.status.degraded ∧
    (t.status.fault = s.status.fault ∨ s.status.fault = none ∧ t.engine = s.engine) ∧
    t.inputs = s.inputs ∧ t.entropyIn = s.entropyIn ∧ t.timeIn = s.timeIn ∧ t.lastTime = s.lastTime ∧
    t.draws = s.draws ∧
    ∀ a, ¬ (base.toNat ≤ a ∧ a < base.toNat + len.toNat) → readByte t.mem a = readByte s.mem a

/-- The CONSTRUCT commands change the engine, CONSTRUCTED, VARIANT and DEGRADED, and the response port; CONSTRUCT_ENTROPY
also reads the input ports. FAULTED, CAUSE and every byte of memory are as before. -/
def Obligations.ConstructCommandsFrame : Prop :=
  ∀ (v : Variant) (seed : List Word) (s t : State),
    (exec (.constructSeeded v seed) s = .next t →
      t.cfg = s.cfg ∧ t.status.fault = s.status.fault ∧ t.inputs = s.inputs ∧ t.entropyIn = s.entropyIn ∧
      t.timeIn = s.timeIn ∧ t.lastTime = s.lastTime ∧ t.draws = s.draws ∧
      ∀ a, readByte t.mem a = readByte s.mem a) ∧
    (exec (.constructEntropy v) s = .next t →
      t.cfg = s.cfg ∧ t.status.fault = s.status.fault ∧ t.inputs = s.inputs ∧
      ∀ a, readByte t.mem a = readByte s.mem a)

/-! ## Invariants -/

/-- The invariant holds right after reset. -/
def Obligations.ResetStateMeetsTheInvariant : Prop := State.Inv State.reset

/-- R20, R24, R31, R32, R50: every step that goes on keeps the invariant, from every state that meets it: the shape of
the engine state, a STATUS the layout allows, and a canonical memory inside the address space. -/
def Obligations.EveryStepKeepsTheInvariant : Prop :=
  ∀ s t : State, State.Inv s → step s = .next t → State.Inv t

/-- R6, R20: the parameters are configuration: no step changes them. -/
def Obligations.EveryStepKeepsTheConfiguration : Prop :=
  ∀ s t : State, step s = .next t → t.cfg = s.cfg

/-! ## The step functions -/

/-- R124, R126, R129, R130: the raw word and the engine after one step of each variant, the new words in terms of the old
ones; InitC by its recurrence; the tempering and MTI of Variant C, whose RegenC is stated above; and, for R6 and R128,
the parameters at reset. ADDR_W and the refused regions at reset are the model's choice (log entries 2, 10), not
stated here. -/
def Obligations.EngineStepsComputeTheirRules : Prop :=
  (∀ (cfg : Config) (s0 s1 : Word),
    let mixed := s0 ^^^ (s0 <<< cfg.aShift1)
    let new := mixed ^^^ (mixed >>> cfg.aShift2) ^^^ s1 ^^^ (s1 >>> cfg.aShift3)
    engineStep cfg (.a s0 s1) = (if cfg.aOutput = .post then s1 + new else s0 + s1, .a s1 new)) ∧
  (∀ (cfg : Config) (s0 s1 s2 s3 : Word), 1 ≤ cfg.bRot → cfg.bRot < 64 →
    engineStep cfg (.b s0 s1 s2 s3) = ((s1 * 5).rotateLeft 7 * 9,
      .b (s0 ^^^ s1 ^^^ s3) (s0 ^^^ s1 ^^^ s2) (s0 ^^^ s2 ^^^ (s1 <<< cfg.bShift))
        ((s1 ^^^ s3).rotateLeft cfg.bRot))) ∧
  (∀ (cfg : Config) (seed : Word), 1 ≤ cfg.cN →
    ∃ ws, initC cfg seed = .c ws cfg.cN ∧ ws.length = cfg.cN ∧ wordAt ws 0 = seed ∧
      ∀ i, i + 1 < cfg.cN → wordAt ws (i + 1) =
        cfg.cF * (wordAt ws i ^^^ (wordAt ws i >>> 62)) + BitVec.ofNat 64 (i + 1)) ∧
  (∀ (cfg : Config) (ws : List Word) (mti : Nat),
    let index := if cfg.cN ≤ mti then 0 else mti
    let ws' := if cfg.cN ≤ mti then regenC cfg ws else ws
    let y0 := wordAt ws' index
    let y1 := y0 ^^^ ((y0 >>> cfg.cU) &&& cfg.cD)
    let y2 := y1 ^^^ ((y1 <<< cfg.cS) &&& cfg.cB)
    let y3 := y2 ^^^ ((y2 <<< cfg.cT) &&& cfg.cC)
    engineStep cfg (.c ws mti) = (y3 ^^^ (y3 >>> cfg.cL), .c ws' (index + 1))) ∧
  (let p := State.reset.cfg;
    (p.aShift1, p.aShift2, p.aShift3) = (23, 18, 5) ∧ p.aOutput = .post ∧ (p.bShift, p.bRot) = (17, 45) ∧
    (p.cN, p.cM) = (312, 156) ∧ (p.cUM, p.cLM) = (0xFFFFFFFF80000000, 0x7FFFFFFF) ∧ p.cA = 0xB5026F5AA96619E9 ∧
    (p.cU, p.cD) = (29, 0x5555555555555555) ∧ (p.cS, p.cB) = (17, 0x71D67FFFEDA60000) ∧
    (p.cT, p.cC) = (37, 0xFFF7EEE000000000) ∧ p.cL = 43 ∧ p.cF = 6364136223846793005)
end

