-- ==== Sys2Proof/Laws/State.lean ====
section
/-! SUPPORT. One lemma per field of State per update: what the update writes, and what it leaves. -/

namespace Sys2Proof.Machine

/-! ## setEngine -/

section

variable (s : State) (e : Engine)

@[simp] theorem setEngine_cfg : (s.setEngine e).cfg = s.cfg := rfl
@[simp] theorem setEngine_engine : (s.setEngine e).engine = e := rfl
@[simp] theorem setEngine_status : (s.setEngine e).status = s.status := rfl
@[simp] theorem setEngine_mem : (s.setEngine e).mem = s.mem := rfl
@[simp] theorem setEngine_inputs : (s.setEngine e).inputs = s.inputs := rfl
@[simp] theorem setEngine_entropyIn : (s.setEngine e).entropyIn = s.entropyIn := rfl
@[simp] theorem setEngine_timeIn : (s.setEngine e).timeIn = s.timeIn := rfl
@[simp] theorem setEngine_lastTime : (s.setEngine e).lastTime = s.lastTime := rfl
@[simp] theorem setEngine_draws : (s.setEngine e).draws = s.draws := rfl
@[simp] theorem setEngine_responses : (s.setEngine e).responses = s.responses := rfl

end

/-! ## setStatus -/

section

variable (s : State) (st : Status)

@[simp] theorem setStatus_cfg : (s.setStatus st).cfg = s.cfg := rfl
@[simp] theorem setStatus_engine : (s.setStatus st).engine = s.engine := rfl
@[simp] theorem setStatus_status : (s.setStatus st).status = st := rfl
@[simp] theorem setStatus_mem : (s.setStatus st).mem = s.mem := rfl
@[simp] theorem setStatus_inputs : (s.setStatus st).inputs = s.inputs := rfl
@[simp] theorem setStatus_entropyIn : (s.setStatus st).entropyIn = s.entropyIn := rfl
@[simp] theorem setStatus_timeIn : (s.setStatus st).timeIn = s.timeIn := rfl
@[simp] theorem setStatus_lastTime : (s.setStatus st).lastTime = s.lastTime := rfl
@[simp] theorem setStatus_draws : (s.setStatus st).draws = s.draws := rfl
@[simp] theorem setStatus_responses : (s.setStatus st).responses = s.responses := rfl

end

/-! ## setMem -/

section

variable (s : State) (m : Memory)

@[simp] theorem setMem_cfg : (s.setMem m).cfg = s.cfg := rfl
@[simp] theorem setMem_engine : (s.setMem m).engine = s.engine := rfl
@[simp] theorem setMem_status : (s.setMem m).status = s.status := rfl
@[simp] theorem setMem_mem : (s.setMem m).mem = m := rfl
@[simp] theorem setMem_inputs : (s.setMem m).inputs = s.inputs := rfl
@[simp] theorem setMem_entropyIn : (s.setMem m).entropyIn = s.entropyIn := rfl
@[simp] theorem setMem_timeIn : (s.setMem m).timeIn = s.timeIn := rfl
@[simp] theorem setMem_lastTime : (s.setMem m).lastTime = s.lastTime := rfl
@[simp] theorem setMem_draws : (s.setMem m).draws = s.draws := rfl
@[simp] theorem setMem_responses : (s.setMem m).responses = s.responses := rfl

end

/-! ## setInputs -/

section

variable (s : State) (evs : List HostEvent)

@[simp] theorem setInputs_cfg : (s.setInputs evs).cfg = s.cfg := rfl
@[simp] theorem setInputs_engine : (s.setInputs evs).engine = s.engine := rfl
@[simp] theorem setInputs_status : (s.setInputs evs).status = s.status := rfl
@[simp] theorem setInputs_mem : (s.setInputs evs).mem = s.mem := rfl
@[simp] theorem setInputs_inputs : (s.setInputs evs).inputs = evs := rfl
@[simp] theorem setInputs_entropyIn : (s.setInputs evs).entropyIn = s.entropyIn := rfl
@[simp] theorem setInputs_timeIn : (s.setInputs evs).timeIn = s.timeIn := rfl
@[simp] theorem setInputs_lastTime : (s.setInputs evs).lastTime = s.lastTime := rfl
@[simp] theorem setInputs_draws : (s.setInputs evs).draws = s.draws := rfl
@[simp] theorem setInputs_responses : (s.setInputs evs).responses = s.responses := rfl

end

/-! ## setEntropyIn -/

section

variable (s : State) (xs : List EntropySample)

@[simp] theorem setEntropyIn_cfg : (s.setEntropyIn xs).cfg = s.cfg := rfl
@[simp] theorem setEntropyIn_engine : (s.setEntropyIn xs).engine = s.engine := rfl
@[simp] theorem setEntropyIn_status : (s.setEntropyIn xs).status = s.status := rfl
@[simp] theorem setEntropyIn_mem : (s.setEntropyIn xs).mem = s.mem := rfl
@[simp] theorem setEntropyIn_inputs : (s.setEntropyIn xs).inputs = s.inputs := rfl
@[simp] theorem setEntropyIn_entropyIn : (s.setEntropyIn xs).entropyIn = xs := rfl
@[simp] theorem setEntropyIn_timeIn : (s.setEntropyIn xs).timeIn = s.timeIn := rfl
@[simp] theorem setEntropyIn_lastTime : (s.setEntropyIn xs).lastTime = s.lastTime := rfl
@[simp] theorem setEntropyIn_draws : (s.setEntropyIn xs).draws = s.draws := rfl
@[simp] theorem setEntropyIn_responses : (s.setEntropyIn xs).responses = s.responses := rfl

end

/-! ## setTimeIn -/

section

variable (s : State) (ts : List Word)

@[simp] theorem setTimeIn_cfg : (s.setTimeIn ts).cfg = s.cfg := rfl
@[simp] theorem setTimeIn_engine : (s.setTimeIn ts).engine = s.engine := rfl
@[simp] theorem setTimeIn_status : (s.setTimeIn ts).status = s.status := rfl
@[simp] theorem setTimeIn_mem : (s.setTimeIn ts).mem = s.mem := rfl
@[simp] theorem setTimeIn_inputs : (s.setTimeIn ts).inputs = s.inputs := rfl
@[simp] theorem setTimeIn_entropyIn : (s.setTimeIn ts).entropyIn = s.entropyIn := rfl
@[simp] theorem setTimeIn_timeIn : (s.setTimeIn ts).timeIn = ts := rfl
@[simp] theorem setTimeIn_lastTime : (s.setTimeIn ts).lastTime = s.lastTime := rfl
@[simp] theorem setTimeIn_draws : (s.setTimeIn ts).draws = s.draws := rfl
@[simp] theorem setTimeIn_responses : (s.setTimeIn ts).responses = s.responses := rfl

end

/-! ## setLastTime -/

section

variable (s : State) (t : Word)

@[simp] theorem setLastTime_cfg : (s.setLastTime t).cfg = s.cfg := rfl
@[simp] theorem setLastTime_engine : (s.setLastTime t).engine = s.engine := rfl
@[simp] theorem setLastTime_status : (s.setLastTime t).status = s.status := rfl
@[simp] theorem setLastTime_mem : (s.setLastTime t).mem = s.mem := rfl
@[simp] theorem setLastTime_inputs : (s.setLastTime t).inputs = s.inputs := rfl
@[simp] theorem setLastTime_entropyIn : (s.setLastTime t).entropyIn = s.entropyIn := rfl
@[simp] theorem setLastTime_timeIn : (s.setLastTime t).timeIn = s.timeIn := rfl
@[simp] theorem setLastTime_lastTime : (s.setLastTime t).lastTime = t := rfl
@[simp] theorem setLastTime_draws : (s.setLastTime t).draws = s.draws := rfl
@[simp] theorem setLastTime_responses : (s.setLastTime t).responses = s.responses := rfl

end

/-! ## setDraws -/

section

variable (s : State) (n : Nat)

@[simp] theorem setDraws_cfg : (s.setDraws n).cfg = s.cfg := rfl
@[simp] theorem setDraws_engine : (s.setDraws n).engine = s.engine := rfl
@[simp] theorem setDraws_status : (s.setDraws n).status = s.status := rfl
@[simp] theorem setDraws_mem : (s.setDraws n).mem = s.mem := rfl
@[simp] theorem setDraws_inputs : (s.setDraws n).inputs = s.inputs := rfl
@[simp] theorem setDraws_entropyIn : (s.setDraws n).entropyIn = s.entropyIn := rfl
@[simp] theorem setDraws_timeIn : (s.setDraws n).timeIn = s.timeIn := rfl
@[simp] theorem setDraws_lastTime : (s.setDraws n).lastTime = s.lastTime := rfl
@[simp] theorem setDraws_draws : (s.setDraws n).draws = n := rfl
@[simp] theorem setDraws_responses : (s.setDraws n).responses = s.responses := rfl

end

/-! ## setResponses -/

section

variable (s : State) (rs : List Response)

@[simp] theorem setResponses_cfg : (s.setResponses rs).cfg = s.cfg := rfl
@[simp] theorem setResponses_engine : (s.setResponses rs).engine = s.engine := rfl
@[simp] theorem setResponses_status : (s.setResponses rs).status = s.status := rfl
@[simp] theorem setResponses_mem : (s.setResponses rs).mem = s.mem := rfl
@[simp] theorem setResponses_inputs : (s.setResponses rs).inputs = s.inputs := rfl
@[simp] theorem setResponses_entropyIn : (s.setResponses rs).entropyIn = s.entropyIn := rfl
@[simp] theorem setResponses_timeIn : (s.setResponses rs).timeIn = s.timeIn := rfl
@[simp] theorem setResponses_lastTime : (s.setResponses rs).lastTime = s.lastTime := rfl
@[simp] theorem setResponses_draws : (s.setResponses rs).draws = s.draws := rfl
@[simp] theorem setResponses_responses : (s.setResponses rs).responses = rs := rfl

end

end Sys2Proof.Machine
end

