-- ==== Sys2Proof/Laws/Ops.lean ====
section
/-! SUPPORT. What the shared operations do: responses, faults, gates, reset, the ports and the memory. -/

namespace Sys2Proof.Machine

/-! ## Field lemmas of the composite updates -/

section

variable (code : RespCode) (value : Word) (bytes : List Byte) (s : State)

@[simp] theorem respond_cfg : (respond code value bytes s).cfg = s.cfg := rfl
@[simp] theorem respond_engine : (respond code value bytes s).engine = s.engine := rfl
@[simp] theorem respond_status : (respond code value bytes s).status = s.status := rfl
@[simp] theorem respond_mem : (respond code value bytes s).mem = s.mem := rfl
@[simp] theorem respond_inputs : (respond code value bytes s).inputs = s.inputs := rfl
@[simp] theorem respond_entropyIn : (respond code value bytes s).entropyIn = s.entropyIn := rfl
@[simp] theorem respond_timeIn : (respond code value bytes s).timeIn = s.timeIn := rfl
@[simp] theorem respond_lastTime : (respond code value bytes s).lastTime = s.lastTime := rfl
@[simp] theorem respond_draws : (respond code value bytes s).draws = s.draws := rfl
@[simp] theorem respond_responses : (respond code value bytes s).responses = s.responses ++ [{ code := code, value := value, bytes := bytes }] := rfl

end

section

variable (value : Word) (bytes : List Byte) (s : State)

@[simp] theorem respondOk_cfg : (respondOk value bytes s).cfg = s.cfg := rfl
@[simp] theorem respondOk_engine : (respondOk value bytes s).engine = s.engine := rfl
@[simp] theorem respondOk_status : (respondOk value bytes s).status = s.status := rfl
@[simp] theorem respondOk_mem : (respondOk value bytes s).mem = s.mem := rfl
@[simp] theorem respondOk_inputs : (respondOk value bytes s).inputs = s.inputs := rfl
@[simp] theorem respondOk_entropyIn : (respondOk value bytes s).entropyIn = s.entropyIn := rfl
@[simp] theorem respondOk_timeIn : (respondOk value bytes s).timeIn = s.timeIn := rfl
@[simp] theorem respondOk_lastTime : (respondOk value bytes s).lastTime = s.lastTime := rfl
@[simp] theorem respondOk_draws : (respondOk value bytes s).draws = s.draws := rfl
@[simp] theorem respondOk_responses : (respondOk value bytes s).responses = s.responses ++ [{ code := .ok, value := value, bytes := bytes }] := rfl

end

section

variable (c : Cause) (s : State)

@[simp] theorem raiseFault_cfg : (raiseFault c s).cfg = s.cfg := rfl
@[simp] theorem raiseFault_engine : (raiseFault c s).engine = s.engine := rfl
@[simp] theorem raiseFault_status : (raiseFault c s).status = { s.status with fault := some c } := rfl
@[simp] theorem raiseFault_mem : (raiseFault c s).mem = s.mem := rfl
@[simp] theorem raiseFault_inputs : (raiseFault c s).inputs = s.inputs := rfl
@[simp] theorem raiseFault_entropyIn : (raiseFault c s).entropyIn = s.entropyIn := rfl
@[simp] theorem raiseFault_timeIn : (raiseFault c s).timeIn = s.timeIn := rfl
@[simp] theorem raiseFault_lastTime : (raiseFault c s).lastTime = s.lastTime := rfl
@[simp] theorem raiseFault_draws : (raiseFault c s).draws = s.draws := rfl
@[simp] theorem raiseFault_responses : (raiseFault c s).responses = s.responses ++ [{ code := .fault, value := BitVec.ofNat 64 (causeCode c), bytes := [] }] := rfl

end

section

variable (s : State)

@[simp] theorem assertReset_cfg : (assertReset s).cfg = s.cfg := rfl
@[simp] theorem assertReset_engine : (assertReset s).engine = unspecifiedEngine s.draws := rfl
@[simp] theorem assertReset_status : (assertReset s).status = Status.reset := rfl
@[simp] theorem assertReset_mem : (assertReset s).mem = s.mem := rfl
@[simp] theorem assertReset_inputs : (assertReset s).inputs = s.inputs := rfl
@[simp] theorem assertReset_entropyIn : (assertReset s).entropyIn = s.entropyIn := rfl
@[simp] theorem assertReset_timeIn : (assertReset s).timeIn = s.timeIn := rfl
@[simp] theorem assertReset_lastTime : (assertReset s).lastTime = s.lastTime := rfl
@[simp] theorem assertReset_draws : (assertReset s).draws = s.draws + 2 := rfl
@[simp] theorem assertReset_responses : (assertReset s).responses = s.responses := rfl

end

section

variable (e : Engine) (degraded : Bool) (s : State)

@[simp] theorem installEngine_cfg : (installEngine e degraded s).cfg = s.cfg := rfl
@[simp] theorem installEngine_engine : (installEngine e degraded s).engine = e := rfl
@[simp] theorem installEngine_status : (installEngine e degraded s).status = { s.status with constructed := true, degraded := degraded } := rfl
@[simp] theorem installEngine_mem : (installEngine e degraded s).mem = s.mem := rfl
@[simp] theorem installEngine_inputs : (installEngine e degraded s).inputs = s.inputs := rfl
@[simp] theorem installEngine_entropyIn : (installEngine e degraded s).entropyIn = s.entropyIn := rfl
@[simp] theorem installEngine_timeIn : (installEngine e degraded s).timeIn = s.timeIn := rfl
@[simp] theorem installEngine_lastTime : (installEngine e degraded s).lastTime = s.lastTime := rfl
@[simp] theorem installEngine_draws : (installEngine e degraded s).draws = s.draws := rfl
@[simp] theorem installEngine_responses : (installEngine e degraded s).responses = s.responses := rfl

end

/-! ## The gates of R213 -/

section

variable {s : State} {body : State → Host.Outcome State Fault Refusal} {o : Host.Outcome State Fault Refusal}

/-- While faulted, a gated command is REFUSED and nothing else happens (R223). -/
theorem unlessFaulted_faulted (h : s.status.fault.isSome = true) :
    unlessFaulted s body = .next (respond .refused 0 [] s) := by simp [unlessFaulted, h]

/-- While not faulted, the gate runs the body. -/
theorem unlessFaulted_clear (h : s.status.fault = none) : unlessFaulted s body = body s := by
  simp [unlessFaulted, h]

/-- Everything the first gate can do. -/
theorem unlessFaulted_cases (h : unlessFaulted s body = o) :
    (s.status.fault.isSome = true ∧ o = .next (respond .refused 0 [] s)) ∨
      (s.status.fault = none ∧ body s = o) := by
  unfold unlessFaulted at h
  split at h
  · exact .inl ⟨‹_›, h.symm⟩
  · exact .inr ⟨Option.not_isSome_iff_eq_none.1 ‹_›, h⟩

/-- An engine is constructed and the block is not faulted: a draw command runs its body (R213). -/
theorem whenConstructed_ready (hf : s.status.fault = none) (hc : s.status.constructed = true) :
    whenConstructed s body = body s := by simp [whenConstructed, unlessFaulted, hf, hc]

/-- A draw command before construction raises NotConstructed (R211). -/
theorem whenConstructed_early (hf : s.status.fault = none) (hc : s.status.constructed = false) :
    whenConstructed s body = .next (raiseFault .notConstructed s) := by
  simp [whenConstructed, unlessFaulted, hf, hc]

/-- Everything the gates of a draw command can do. -/
theorem whenConstructed_cases (h : whenConstructed s body = o) :
    (s.status.fault.isSome = true ∧ o = .next (respond .refused 0 [] s)) ∨
      (s.status.fault = none ∧ s.status.constructed = false ∧ o = .next (raiseFault .notConstructed s)) ∨
      (s.status.fault = none ∧ s.status.constructed = true ∧ body s = o) := by
  rcases unlessFaulted_cases h with h | ⟨hf, hb⟩
  · exact .inl h
  · cases hc : s.status.constructed <;> simp [hc] at hb
    · exact .inr (.inl ⟨hf, rfl, hb.symm⟩)
    · exact .inr (.inr ⟨hf, rfl, hb⟩)

end

/-! ## The input ports -/

/-- The later of two timestamps is not below either. -/
theorem laterTime_bounds (last t : Word) :
    last.toNat ≤ (laterTime last t).toNat ∧ t.toNat ≤ (laterTime last t).toNat := by
  unfold laterTime
  split <;> omega

/-- A timestamp not below the last one is read as it is (R102). -/
theorem laterTime_of_le {last t : Word} (h : last.toNat ≤ t.toNat) : laterTime last t = t := by
  simp [laterTime, h]

section

variable (s : State)

@[simp] theorem readEntropy_cfg : (readEntropy s).2.cfg = s.cfg := by unfold readEntropy; split <;> rfl
@[simp] theorem readEntropy_engine : (readEntropy s).2.engine = s.engine := by unfold readEntropy; split <;> rfl
@[simp] theorem readEntropy_status : (readEntropy s).2.status = s.status := by unfold readEntropy; split <;> rfl
@[simp] theorem readEntropy_mem : (readEntropy s).2.mem = s.mem := by unfold readEntropy; split <;> rfl
@[simp] theorem readEntropy_inputs : (readEntropy s).2.inputs = s.inputs := by unfold readEntropy; split <;> rfl
@[simp] theorem readEntropy_timeIn : (readEntropy s).2.timeIn = s.timeIn := by unfold readEntropy; split <;> rfl
@[simp] theorem readEntropy_lastTime : (readEntropy s).2.lastTime = s.lastTime := by
  unfold readEntropy; split <;> rfl
@[simp] theorem readEntropy_responses : (readEntropy s).2.responses = s.responses := by
  unfold readEntropy; split <;> rfl

@[simp] theorem readTimestamp_cfg : (readTimestamp s).2.cfg = s.cfg := by unfold readTimestamp; split <;> rfl
@[simp] theorem readTimestamp_engine : (readTimestamp s).2.engine = s.engine := by
  unfold readTimestamp; split <;> rfl
@[simp] theorem readTimestamp_status : (readTimestamp s).2.status = s.status := by
  unfold readTimestamp; split <;> rfl
@[simp] theorem readTimestamp_mem : (readTimestamp s).2.mem = s.mem := by unfold readTimestamp; split <;> rfl
@[simp] theorem readTimestamp_inputs : (readTimestamp s).2.inputs = s.inputs := by
  unfold readTimestamp; split <;> rfl
@[simp] theorem readTimestamp_entropyIn : (readTimestamp s).2.entropyIn = s.entropyIn := by
  unfold readTimestamp; split <;> rfl
@[simp] theorem readTimestamp_responses : (readTimestamp s).2.responses = s.responses := by
  unfold readTimestamp; split <;> rfl

/-- The timestamp read is remembered as the last one. -/
@[simp] theorem readTimestamp_lastTime : (readTimestamp s).2.lastTime = (readTimestamp s).1 := by
  unfold readTimestamp; split <;> rfl

/-- The last timestamp is a lower bound of the next one (R102). -/
theorem lastTime_le_readTimestamp : s.lastTime.toNat ≤ (readTimestamp s).1.toNat := by
  unfold readTimestamp
  split <;> exact (laterTime_bounds _ _).1

end

/-! ## The command port -/

@[simp] theorem leadingWords_words_append (ws : List Word) (evs : List HostEvent) :
    leadingWords (ws.map .word ++ evs) = ws ++ leadingWords evs := by
  induction ws with
  | nil => rfl
  | cons w ws ih => simp [leadingWords, ih]

@[simp] theorem afterWords_words_append (ws : List Word) (evs : List HostEvent) :
    afterWords (ws.map .word ++ evs) = afterWords evs := by
  induction ws with
  | nil => rfl
  | cons w ws ih => simp [afterWords, ih]

section

variable {s t : State} {rest : List HostEvent}

@[simp] theorem resetIfStuck_next : resetIfStuck s rest (.next t) = .next t := rfl

@[simp] theorem resetIfStuck_refused (r : Refusal) : resetIfStuck s rest (.refused r) = .refused r := rfl

/-- A stuck command with no reset behind it stops the machine. -/
theorem resetIfStuck_stuck {f : Fault} (h : afterWords rest = []) : resetIfStuck s rest (.fault f) = .fault f := by
  simp [resetIfStuck, h]

/-- A stuck command with a reset behind it: the reset is taken, and nothing of the command happens. -/
theorem resetIfStuck_reset (f : Fault) (ws : List Word) (evs : List HostEvent) :
    resetIfStuck s (ws.map .word ++ .reset :: evs) (.fault f) = .next (assertReset (s.setInputs evs)) := by
  simp [resetIfStuck, afterWords]

/-- Everything a command at the port can come to when the machine goes on. -/
theorem resetIfStuck_cases {o : Host.Outcome State Fault Refusal} (h : resetIfStuck s rest o = .next t) :
    o = .next t ∨ ∃ f evs, o = .fault f ∧ t = assertReset (s.setInputs evs) := by
  cases o with
  | next u => exact .inl h
  | refused r => cases h
  | fault f =>
    simp only [resetIfStuck] at h
    split at h
    · cases h
    · cases h
      exact .inr ⟨f, _, rfl, rfl⟩

end

/-! ## The host byte memory -/

/-- A write to an address below every listed one, or to a rising list, keeps every listed address above `x`. -/
theorem writeByte_above {m : Memory} {x a : Nat} {b : Byte} (hx : x < a) (hm : ∀ p ∈ m, x < p.1) :
    ∀ p ∈ writeByte m a b, x < p.1 := by
  induction m with
  | nil => simpa [writeByte] using hx
  | cons q rest ih =>
    obtain ⟨y, c⟩ := q
    have hy : x < y := hm (y, c) (by simp)
    have hrest : ∀ p ∈ rest, x < p.1 := fun p hp => hm p (by simp [hp])
    unfold writeByte
    split
    · simpa [hx, hy] using hrest
    · split
      · simpa [hx] using hrest
      · simpa [hy] using ih hrest

/-- A byte write keeps the canonical form. -/
theorem writeByte_wf {m : Memory} {a : Nat} {b : Byte} (h : Memory.wf m) : Memory.wf (writeByte m a b) := by
  induction m with
  | nil => simp [writeByte, Memory.wf]
  | cons q rest ih =>
    obtain ⟨y, c⟩ := q
    obtain ⟨hy, hrest⟩ := List.pairwise_cons.1 h
    unfold writeByte
    split
    · rename_i hlt
      exact List.pairwise_cons.2
        ⟨fun p hp => by
          rcases List.mem_cons.1 hp with rfl | hp
          · exact hlt
          · exact Nat.lt_trans hlt (hy p hp), h⟩
    · split
      · rename_i heq
        exact List.pairwise_cons.2 ⟨fun p hp => heq ▸ hy p hp, hrest⟩
      · exact List.pairwise_cons.2 ⟨writeByte_above (by omega) hy, ih hrest⟩

/-- Byte writes keep the canonical form. -/
theorem writeBytes_wf {m : Memory} {a : Nat} (bs : List Byte) (h : Memory.wf m) : Memory.wf (writeBytes m a bs) := by
  induction bs generalizing m a with
  | nil => exact h
  | cons b bs ih => exact ih (writeByte_wf h)

/-- The byte just written is read back. -/
@[simp] theorem readByte_writeByte_same {m : Memory} {a : Nat} {b : Byte} :
    readByte (writeByte m a b) a = some b := by
  induction m with
  | nil => simp [writeByte, readByte]
  | cons q rest ih =>
    obtain ⟨y, c⟩ := q
    unfold writeByte
    split
    · simp [readByte]
    · split
      · simp [readByte]
      · rename_i h1 h2
        simp [readByte, ih, Ne.symm h2]

/-- A byte write leaves every other address alone (R52). -/
theorem readByte_writeByte_other {m : Memory} {a x : Nat} {b : Byte} (hne : x ≠ a) :
    readByte (writeByte m a b) x = readByte m x := by
  induction m with
  | nil => simp [writeByte, readByte, Ne.symm hne]
  | cons q rest ih =>
    obtain ⟨y, c⟩ := q
    unfold writeByte
    split
    · simp [readByte, Ne.symm hne]
    · split
      · rename_i heq
        simp [readByte, Ne.symm hne, ← heq]
      · simp [readByte, ih]

/-- Byte writes from `a` up leave every address below `a` alone. -/
theorem readByte_writeBytes_below {m : Memory} {a x : Nat} (bs : List Byte) (hx : x < a) :
    readByte (writeBytes m a bs) x = readByte m x := by
  induction bs generalizing m a with
  | nil => rfl
  | cons b bs ih => rw [writeBytes, ih (by omega), readByte_writeByte_other (by omega)]

/-- Everything byte writes do: the address `a + o` reads as byte `o`, every other address as before (R52, R55). -/
theorem readByte_writeBytes (m : Memory) (a x : Nat) (bs : List Byte) :
    readByte (writeBytes m a bs) x = if a ≤ x ∧ x < a + bs.length then bs[x - a]? else readByte m x := by
  induction bs generalizing m a with
  | nil =>
    rw [writeBytes, if_neg (by simp)]
  | cons b bs ih =>
    rw [writeBytes, ih]
    by_cases hx : x = a
    · subst hx
      simp
    · rw [readByte_writeByte_other hx]
      by_cases hin : a + 1 ≤ x ∧ x < a + 1 + bs.length
      · have h1 : a ≤ x ∧ x < a + (b :: bs).length := by simp only [List.length_cons]; omega
        have h2 : x - a = x - (a + 1) + 1 := by omega
        rw [if_pos hin, if_pos h1, h2, List.getElem?_cons_succ]
      · have h1 : ¬ (a ≤ x ∧ x < a + (b :: bs).length) := by simp only [List.length_cons]; omega
        rw [if_neg hin, if_neg h1]

/-- Every address a byte write leaves listed was listed or is the one written. -/
theorem mem_writeByte {m : Memory} {a : Nat} {b : Byte} {p : Host.Cell} (hp : p ∈ writeByte m a b) :
    p = (a, b) ∨ p ∈ m := by
  induction m with
  | nil => simpa [writeByte] using hp
  | cons q rest ih =>
    obtain ⟨y, c⟩ := q
    unfold writeByte at hp
    split at hp
    · simpa using hp
    · split at hp
      · rcases List.mem_cons.1 hp with h | h
        · exact .inl h
        · exact .inr (by simp [h])
      · rcases List.mem_cons.1 hp with h | h
        · exact .inr (by simp [h])
        · rcases ih h with h | h
          · exact .inl h
          · exact .inr (by simp [h])

/-- Byte writes below a bound keep every listed address below it. -/
theorem writeBytes_below {m : Memory} {a n : Nat} (bs : List Byte) (hm : ∀ p ∈ m, p.1 < n)
    (hn : a + bs.length ≤ n) : ∀ p ∈ writeBytes m a bs, p.1 < n := by
  induction bs generalizing m a with
  | nil => exact hm
  | cons b bs ih =>
    simp only [List.length_cons] at hn
    refine ih (fun p hp => ?_) (by omega)
    rcases mem_writeByte hp with rfl | h
    · show a < n
      omega
    · exact hm p h

/-- The memory right after reset is canonical. -/
theorem reset_mem_wf : Memory.wf State.reset.mem := List.Pairwise.nil

end Sys2Proof.Machine
end

