-- ==== Sys2Proof/Laws/Engine.lean ====
section
/-! SUPPORT. What the engine's operations keep: the variant, and the shape of the state of Variant C. -/

namespace Sys2Proof.Machine

section

variable (cfg : Config)

@[simp] theorem twistAt_length (ws : List Word) (i : Nat) : (twistAt cfg ws i).length = ws.length := by
  simp [twistAt]

theorem foldl_twistAt_length (is : List Nat) (ws : List Word) :
    (is.foldl (twistAt cfg) ws).length = ws.length := by
  induction is generalizing ws with
  | nil => rfl
  | cons i is ih => simp [ih]

/-- Regeneration keeps the number of state words (R131). -/
@[simp] theorem regenC_length (ws : List Word) : (regenC cfg ws).length = ws.length :=
  foldl_twistAt_length cfg _ ws

/-- `Step()` keeps the variant (R122). -/
@[simp] theorem engineStep_variant (e : Engine) : engineVariant (engineStep cfg e).2 = engineVariant e := by
  cases e with
  | a s0 s1 => rfl
  | b s0 s1 s2 s3 => rfl
  | c ws mti =>
    simp only [engineStep, stepC]
    split <;> rfl

/-- `Step()` keeps the shape of the engine state (R31, R32). -/
theorem engineStep_wf (hN : 1 ≤ cfg.cN) {e : Engine} (h : engineWf cfg e = true) :
    engineWf cfg (engineStep cfg e).2 = true := by
  cases e with
  | a s0 s1 => rfl
  | b s0 s1 s2 s3 => rfl
  | c ws mti =>
    simp only [engineWf, Bool.and_eq_true, beq_iff_eq, decide_eq_true_eq] at h
    simp only [engineStep, stepC]
    split <;> simp [engineWf, h.1] <;> omega

/-- The warm-up is 256 steps (R133). -/
theorem warmupSteps_eq : warmupSteps = 256 := by unfold warmupSteps; rfl

/-- Discarded steps keep the variant. -/
@[simp] theorem discardSteps_variant (n : Nat) (e : Engine) :
    engineVariant (discardSteps cfg n e) = engineVariant e := by
  induction n generalizing e with
  | zero => rfl
  | succ n ih => simp [discardSteps, ih]

/-- Discarded steps keep the shape of the engine state. -/
theorem discardSteps_wf (hN : 1 ≤ cfg.cN) (n : Nat) {e : Engine} (h : engineWf cfg e = true) :
    engineWf cfg (discardSteps cfg n e) = true := by
  induction n generalizing e with
  | zero => exact h
  | succ n ih => exact ih (engineStep_wf cfg hN h)

@[simp] theorem initWords_length (k i : Nat) (prev : Word) : (initWords cfg k i prev).length = k := by
  induction k generalizing i prev with
  | zero => rfl
  | succ k ih => simp [initWords, ih]

/-- A loaded seed is an engine state of the variant's shape (R132). -/
theorem loadSeed_wf (hN : 1 ≤ cfg.cN) (v : Variant) (seed : List Word) :
    engineWf cfg (loadSeed cfg v seed) = true := by
  cases v <;> simp [loadSeed, initC, engineWf]
  omega

@[simp] theorem loadSeed_variant (v : Variant) (seed : List Word) :
    engineVariant (loadSeed cfg v seed) = v := by cases v <;> rfl

/-- A constructed engine is of the command's variant (R26). -/
@[simp] theorem constructEngine_variant (v : Variant) (seed : List Word) :
    engineVariant (constructEngine cfg v seed) = v := by simp [constructEngine]

/-- A constructed engine has its variant's shape. -/
theorem constructEngine_wf (hN : 1 ≤ cfg.cN) (v : Variant) (seed : List Word) :
    engineWf cfg (constructEngine cfg v seed) = true :=
  discardSteps_wf cfg hN _ (loadSeed_wf cfg hN v seed)

/-- One step more is one step after the others. -/
theorem discardSteps_succ (n : Nat) (e : Engine) :
    discardSteps cfg (n + 1) e = (engineStep cfg (discardSteps cfg n e)).2 := by
  induction n generalizing e with
  | zero => rfl
  | succ n ih => rw [discardSteps, ih, discardSteps]

/-- The next raw word after one step is the word number `n + 1`. -/
theorem rawWord_succ (e : Engine) (n : Nat) : rawWord cfg e (n + 1) = rawWord cfg (engineStep cfg e).2 n := rfl

end

/-! ## Seed gathering -/

section

variable (s : State)

@[simp] theorem readSeedWord_cfg : (readSeedWord s).2.2.cfg = s.cfg := by simp [readSeedWord]
@[simp] theorem readSeedWord_engine : (readSeedWord s).2.2.engine = s.engine := by simp [readSeedWord]
@[simp] theorem readSeedWord_status : (readSeedWord s).2.2.status = s.status := by simp [readSeedWord]
@[simp] theorem readSeedWord_mem : (readSeedWord s).2.2.mem = s.mem := by simp [readSeedWord]
@[simp] theorem readSeedWord_inputs : (readSeedWord s).2.2.inputs = s.inputs := by simp [readSeedWord]
@[simp] theorem readSeedWord_responses : (readSeedWord s).2.2.responses = s.responses := by simp [readSeedWord]

end

section

variable (k : Nat) (s : State)

@[simp] theorem gatherSeed_length : (gatherSeed k s).1.length = k := by
  induction k generalizing s with
  | zero => rfl
  | succ k ih => simp [gatherSeed, ih]

@[simp] theorem gatherSeed_cfg : (gatherSeed k s).2.2.cfg = s.cfg := by
  induction k generalizing s with
  | zero => rfl
  | succ k ih => simp [gatherSeed, ih]

@[simp] theorem gatherSeed_engine : (gatherSeed k s).2.2.engine = s.engine := by
  induction k generalizing s with
  | zero => rfl
  | succ k ih => simp [gatherSeed, ih]

@[simp] theorem gatherSeed_status : (gatherSeed k s).2.2.status = s.status := by
  induction k generalizing s with
  | zero => rfl
  | succ k ih => simp [gatherSeed, ih]

@[simp] theorem gatherSeed_mem : (gatherSeed k s).2.2.mem = s.mem := by
  induction k generalizing s with
  | zero => rfl
  | succ k ih => simp [gatherSeed, ih]

@[simp] theorem gatherSeed_inputs : (gatherSeed k s).2.2.inputs = s.inputs := by
  induction k generalizing s with
  | zero => rfl
  | succ k ih => simp [gatherSeed, ih]

@[simp] theorem gatherSeed_responses : (gatherSeed k s).2.2.responses = s.responses := by
  induction k generalizing s with
  | zero => rfl
  | succ k ih => simp [gatherSeed, ih]

end

/-! ## The machine's step of the engine -/

section

variable (s : State)

@[simp] theorem stepEngine_word : (stepEngine s).1 = (engineStep s.cfg s.engine).1 := rfl
@[simp] theorem stepEngine_state : (stepEngine s).2 = s.setEngine (engineStep s.cfg s.engine).2 := rfl

end

end Sys2Proof.Machine
end

