-- ==== Sys2Proof/Laws/ByteFill.lean ====
section
/-! SUPPORT. The bytes of one raw word, and one pass of the fill loop. -/

namespace Sys2Proof.Machine

@[simp] theorem lowBytes_length (x : Word) (n : Nat) : (lowBytes x n).length = n := by simp [lowBytes]

/-- Byte `j` of the low bytes of a word (R53). -/
theorem lowBytes_getElem? {x : Word} {n j : Nat} (hj : j < n) : (lowBytes x n)[j]? = some (wordByte x j) := by
  simp [lowBytes, hj]

/-- One pass of the fill loop (R191). -/
theorem fillLoop_succ (cfg : Config) (words remaining : Nat) (e : Engine) :
    fillLoop cfg (words + 1) remaining e =
      (lowBytes (engineStep cfg e).1 (min 8 remaining) ++
          (fillLoop cfg words (remaining - min 8 remaining) (engineStep cfg e).2).1,
        (fillLoop cfg words (remaining - min 8 remaining) (engineStep cfg e).2).2) := rfl

end Sys2Proof.Machine
end

