-- ==== Sys2Proof/Laws/PerInstr.lean ====
section
/-! SUPPORT. Facts about every instruction as syntax, one lemma per constructor. -/

/-! ## The header word of an instruction decodes to its header (R82, R88) -/

namespace Sys2Proof.Laws.HeaderRoundTrip

open Sys2Proof

/-- The encoder's header word of `i` is the header the decoder reads. -/
def Statement (i : Instr) : Prop := decodeHeader i.header.word = some i.header

theorem constructSeeded (v : Variant) (seed : List Word) : Statement (.constructSeeded v seed) := by
  cases v <;> simp only [Statement, Instr.header] <;> decide
theorem constructEntropy (v : Variant) : Statement (.constructEntropy v) := by
  cases v <;> simp only [Statement, Instr.header] <;> decide
theorem nextRaw : Statement .nextRaw := by simp only [Statement, Instr.header]; decide
theorem nextDouble : Statement .nextDouble := by simp only [Statement, Instr.header]; decide
theorem nextInt (w : IntWidth) (signed : Bool) (lo hi : Word) : Statement (.nextInt w signed lo hi) := by
  cases w <;> cases signed <;> simp only [Statement, Instr.header] <;> decide
theorem nextFloat (f : FloatWidth) (lo hi : Word) : Statement (.nextFloat f lo hi) := by
  cases f <;> simp only [Statement, Instr.header] <;> decide
theorem fillBytes (base len : Word) : Statement (.fillBytes base len) := by
  simp only [Statement, Instr.header]; decide
theorem generateBytes (count : Word) : Statement (.generateBytes count) := by
  simp only [Statement, Instr.header]; decide
theorem readStatus : Statement .readStatus := by simp only [Statement, Instr.header]; decide
theorem readMin : Statement .readMin := by simp only [Statement, Instr.header]; decide
theorem readMax : Statement .readMax := by simp only [Statement, Instr.header]; decide

end Sys2Proof.Laws.HeaderRoundTrip

/-! ## A well-formed instruction has its header's operand words (R76) -/

namespace Sys2Proof.Laws.OperandWords

open Sys2Proof

/-- A well-formed instruction is its header with exactly its header's number of operand words. -/
def Statement (i : Instr) : Prop :=
  i.wellFormed = true → i.operands.length = i.header.operandCount ∧ i.header.withOperands i.operands = i

theorem constructSeeded (v : Variant) (seed : List Word) : Statement (.constructSeeded v seed) := by
  intro h
  simpa [Instr.wellFormed, Instr.operands, Instr.header, Header.operandCount, Header.withOperands] using h
theorem constructEntropy (v : Variant) : Statement (.constructEntropy v) := fun _ => ⟨rfl, rfl⟩
theorem nextRaw : Statement .nextRaw := fun _ => ⟨rfl, rfl⟩
theorem nextDouble : Statement .nextDouble := fun _ => ⟨rfl, rfl⟩
theorem nextInt (w : IntWidth) (signed : Bool) (lo hi : Word) : Statement (.nextInt w signed lo hi) :=
  fun _ => ⟨rfl, rfl⟩
theorem nextFloat (f : FloatWidth) (lo hi : Word) : Statement (.nextFloat f lo hi) := fun _ => ⟨rfl, rfl⟩
theorem fillBytes (base len : Word) : Statement (.fillBytes base len) := fun _ => ⟨rfl, rfl⟩
theorem generateBytes (count : Word) : Statement (.generateBytes count) := fun _ => ⟨rfl, rfl⟩
theorem readStatus : Statement .readStatus := fun _ => ⟨rfl, rfl⟩
theorem readMin : Statement .readMin := fun _ => ⟨rfl, rfl⟩
theorem readMax : Statement .readMax := fun _ => ⟨rfl, rfl⟩

end Sys2Proof.Laws.OperandWords
end

