-- ==== Sys2Proof/Laws/Sampler.lean ====
section
/-! SUPPORT. What the rejection loops answer when they answer, and what the integer operands are. -/

namespace Sys2Proof.Machine

section

variable {cfg : Config}

/-- Steps after the first are steps of the engine after it. -/
theorem rawWord_step (e : Engine) (k : Nat) : rawWord cfg (engineStep cfg e).2 k = rawWord cfg e (k + 1) := rfl

/-- When the loop of `UniformBelow` answers, it answers the first accepted word (R162). -/
theorem rejectLoop_some {s fuel j : Nat} {e e' : Engine}
    (h : rejectLoop cfg s fuel (mulfull (rawWord cfg e 0) s) (engineStep cfg e).2 = some (j, e')) :
    ∃ n, n ≤ fuel ∧ (∀ k, k < n → ¬ accepted s (rawWord cfg e k)) ∧ accepted s (rawWord cfg e n) ∧
      j = hi64 (mulfull (rawWord cfg e n) s) ∧ e' = discardSteps cfg (n + 1) e := by
  induction fuel generalizing e with
  | zero =>
    unfold rejectLoop at h
    split at h
    · cases h
    · cases h
      exact ⟨0, Nat.le_refl 0, by simp, Nat.le_of_not_lt ‹_›, rfl, rfl⟩
  | succ fuel ih =>
    unfold rejectLoop at h
    split at h
    · rename_i hrej
      obtain ⟨n, hn, hk, hacc, hj, he⟩ := ih h
      refine ⟨n + 1, by omega, fun k hlt => ?_, hacc, hj, he⟩
      cases k with
      | zero => exact Nat.not_le_of_lt hrej
      | succ k => exact hk k (by omega)
    · cases h
      exact ⟨0, Nat.zero_le _, by simp, Nat.le_of_not_lt ‹_›, rfl, rfl⟩

/-- When the loop runs out of fuel, every word it took was rejected. -/
theorem rejectLoop_none {s fuel : Nat} {e : Engine}
    (h : rejectLoop cfg s fuel (mulfull (rawWord cfg e 0) s) (engineStep cfg e).2 = none) :
    ∀ k, k ≤ fuel → ¬ accepted s (rawWord cfg e k) := by
  induction fuel generalizing e with
  | zero =>
    intro k hk
    unfold rejectLoop at h
    split at h
    · obtain rfl : k = 0 := by omega
      exact Nat.not_le_of_lt ‹_›
    · cases h
  | succ fuel ih =>
    intro k hk
    unfold rejectLoop at h
    split at h
    · cases k with
      | zero => exact Nat.not_le_of_lt ‹_›
      | succ k => exact ih h k (by omega)
    · cases h

/-- When the loop of NEXT_FLOAT answers, it answers the first result below `hi` (R170). -/
theorem floatLoop_some {f : FloatWidth} {lo hi d r : FloatVal} {fuel : Nat} {e e' : Engine}
    (h : floatLoop cfg f lo hi d fuel e = some (r, e')) :
    ∃ n, n < fuel ∧ (∀ k, k < n → floatLt (affine f lo d (rawWord cfg e k)) hi = false) ∧
      floatLt (affine f lo d (rawWord cfg e n)) hi = true ∧ r = affine f lo d (rawWord cfg e n) ∧
      e' = discardSteps cfg (n + 1) e := by
  induction fuel generalizing e with
  | zero => cases h
  | succ fuel ih =>
    simp only [floatLoop] at h
    split at h
    · cases h
      exact ⟨0, by omega, by simp, ‹_›, rfl, rfl⟩
    · rename_i hrej
      obtain ⟨n, hn, hk, hlt, hr, he⟩ := ih h
      refine ⟨n + 1, by omega, fun k hlt => ?_, hlt, hr, he⟩
      cases k with
      | zero => exact Bool.eq_false_iff.2 hrej
      | succ k => exact hk k (by omega)

/-- When the loop runs out of fuel, every result it made was rejected. -/
theorem floatLoop_none {f : FloatWidth} {lo hi d : FloatVal} {fuel : Nat} {e : Engine}
    (h : floatLoop cfg f lo hi d fuel e = none) :
    ∀ k, k < fuel → floatLt (affine f lo d (rawWord cfg e k)) hi = false := by
  induction fuel generalizing e with
  | zero => intro k hk; omega
  | succ fuel ih =>
    intro k hk
    simp only [floatLoop] at h
    split at h
    · cases h
    · cases k with
      | zero => exact Bool.eq_false_iff.2 ‹_›
      | succ k => exact ih h k (by omega)

end

/-- A W-bit operand is below 2^W (R77). -/
theorem intOperand_lt (w : IntWidth) (x : Word) : intOperand w x < 2 ^ intBits w :=
  Nat.mod_lt _ (Nat.two_pow_pos _)

/-- A span is below 2^W (R163). -/
theorem intSpan_lt (w : IntWidth) (lo hi : Nat) : intSpan w lo hi < 2 ^ intBits w :=
  Nat.mod_lt _ (Nat.two_pow_pos _)

/-- No width is wider than a word (R74). -/
theorem intBits_le (w : IntWidth) : intBits w ≤ 64 := by cases w <;> decide

end Sys2Proof.Machine
end

