-- ==== Sys2Proof/Tests/Slice0.lean ====
section
/-! SUPPORT. Tests of the model. Every expected value is the spec's: the vectors of 95_test_vectors.md, the examples of
the rules, or a word written out from the encoding tables. The theorems named witness_* show that the hypotheses of
the statement they name can be met together. -/

namespace Sys2Proof.Tests

open Sys2Proof Sys2Proof.Machine

/-! ## Helpers -/

/-- The response a command ends with. -/
def answer (o : Host.Outcome State Fault Refusal) : Option Response :=
  match o with
  | .next t => t.responses.getLast?
  | .fault _ => none
  | .refused _ => none

/-- The state after a command, or the state before it. -/
def after (o : Host.Outcome State Fault Refusal) (s : State) : State :=
  match o with
  | .next t => t
  | .fault _ => s
  | .refused _ => s

def okResp (v : Word) : Option Response := some { code := .ok, value := v, bytes := [] }

def faultResp (v : Word) : Option Response := some { code := .fault, value := v, bytes := [] }

def refusedResp : Option Response := some { code := .refused, value := 0, bytes := [] }

/-- A constructed engine, no fault. -/
def withEngine (e : Engine) : State :=
  { State.reset with engine := e, status := { constructed := true, degraded := false, fault := none } }

/-- Parameters under which the tempering of Variant C changes nothing. -/
def plainConfig : Config := { defaultConfig with cN := 8, cU := 0, cD := 0, cB := 0, cC := 0, cL := 64 }

/-- A state whose next raw words are the given ones (at most eight), for the vectors "from given raw words". -/
def withWords (ws : List Word) : State := { withEngine (.c ws 0) with cfg := plainConfig }

/-- A faulted block. -/
def faulted (c : Cause) : State :=
  { State.reset with status := { constructed := false, degraded := false, fault := some c } }

def sendWords (ws : List Word) (s : State) : State := s.setInputs (ws.map .word)

/-! ## Well-formedness (R76) -/

theorem test_wellFormed_refuses_three_seed_words_for_B :
    (Instr.constructSeeded .b [1, 2, 3]).wellFormed = false := by decide

theorem test_wellFormed_takes_the_seed_counts :
    (Instr.constructSeeded .a [1, 2]).wellFormed = true ∧ (Instr.constructSeeded .b [1, 2, 3, 4]).wellFormed = true ∧
      (Instr.constructSeeded .c [1]).wellFormed = true := by decide

/-! ## Decoding: words written out from R71, R72 and R76 -/

/-- OPC = 0x01, VAR = 01. -/
theorem test_decode_construct_seeded :
    decode [0b01_00000001, 1, 2, 3, 4] = .command (.constructSeeded .b [1, 2, 3, 4]) [] := by decide

/-- OPC = 0x02, VAR = 10. -/
theorem test_decode_construct_entropy : decode [0b10_00000010] = .command (.constructEntropy .c) [] := by decide

theorem test_decode_next_raw : decode [0b00010000] = .command .nextRaw [] := by decide

theorem test_decode_next_double : decode [0b00010001] = .command .nextDouble [] := by decide

/-- OPC = 0x12, SGN = 1, WC = 10: NEXT_INT.i32, then MIN, MAX and a word that is not its own. -/
theorem test_decode_next_int :
    decode [0b1_10_00_00010010, 5, 6, 7] = .command (.nextInt .w32 true 5 6) [7] := by decide

/-- OPC = 0x13, FW = 1: NEXT_FLOAT.f32. -/
theorem test_decode_next_float :
    decode [0b1_0_00_00_00010011, 5, 6] = .command (.nextFloat .f32 5 6) [] := by decide

theorem test_decode_fill_bytes : decode [0b00100000, 0x1000, 9] = .command (.fillBytes 0x1000 9) [] := by decide

theorem test_decode_generate_bytes : decode [0b00100001, 9] = .command (.generateBytes 9) [] := by decide

theorem test_decode_read_status : decode [0b00110000] = .command .readStatus [] := by decide

theorem test_decode_read_min : decode [0b00110001] = .command .readMin [] := by decide

theorem test_decode_read_max : decode [0b00110010] = .command .readMax [] := by decide

/-- The illegal headers of 95_test_vectors.md section 2.1. -/
theorem test_decode_illegal_headers :
    [0x0301, 0x0110, 0x4010, 0x8000000000000010, 0x2012, 0x1013, 0x0000, 0x0003, 0x00FF].all
      (fun h : Word => decode [h, 0, 0, 0, 0] == .illegalHeader) = true := by decide

/-- R83: operand words are still to come. -/
theorem test_decode_waits_for_operands : decode [0x0020, 0x1000] = .incomplete := by decide

/-- R88: the encoder writes the header words of the table, 23 of them. -/
theorem test_encode_writes_the_headers_of_R88 :
    legalHeaders.all (fun p => p.2.word == p.1) = true ∧ legalHeaders.length = 23 := by decide

theorem test_decodeTableWord_reads_the_header :
    decodeTableWord 64 0x101 = some (.constructSeeded .b [0, 0, 0, 0]) ∧ decodeTableWord 64 0x301 = none := by decide

/-- R86: assembler lines; `NEXT_INT.i32 -10, 10`, and a suffix the opcode does not take. -/
theorem test_assemble :
    assemble .nextInt (some (.int .w32 true)) [-10, 10] = some (.nextInt .w32 true 0xFFFFFFFFFFFFFFF6 10) ∧
      assemble .nextRaw (some (.var .a)) [] = none ∧ assemble .fillBytes none [0x1000] = none := by decide

/-- R87: the pseudo-commands. -/
theorem test_pseudo_commands :
    expandPseudo .nextBool = .nextInt .w8 false 0 1 ∧ expandPseudo (.construct .b []) = .constructEntropy .b ∧
      expandPseudo (.construct .c [7]) = .constructSeeded .c [7] := by decide

/-! ## Step functions, no warm-up (95_test_vectors.md section 2.2) -/

theorem test_stepA :
    engineStep defaultConfig (.a 0x1111111111111111 0x2222222222222222) =
      (0xDCCCAEEEEEE66668, .a 0x2222222222222222 0xBAAA8CCCCCC44446) := by decide +kernel

theorem test_stepA_pre :
    engineStep { defaultConfig with aOutput := .pre } (.a 1 2) = (3, .a 2 0x800023) := by decide +kernel

theorem test_stepB :
    engineStep defaultConfig (.b 0xC00000000007 0x40005 0x40005 0x18000000) =
      (0x5A007080, .b 0xC00018040002 0xC00000000007 0xC008000E0002 0x8000A00000000300) := by decide +kernel

/-- The published check value of `std::mt19937_64` seeded with 5489 (R128), and MTI after it (R130). -/
theorem test_stepC_check_value :
    (engineStep defaultConfig (initC defaultConfig 5489)).1 = 14514284786278117030 := by decide +kernel

/-- R129: `InitC(5489)`. -/
theorem test_initC :
    (match initC defaultConfig 5489 with
    | .c ws mti => wordAt ws 1 == 0xB5347F47116BD3DE && wordAt ws 311 == 0xC65AE95C45A5D796 && mti == 312
    | .a _ _ => false
    | .b _ _ _ _ => false) = true := by decide +kernel

/-! ## The commands -/

/-- Program P1: CONSTRUCT_SEEDED.A and NEXT_RAW. -/
theorem test_construct_seeded_A_golden :
    answer (exec .nextRaw (after (exec (.constructSeeded .a [0x1111111111111111, 0x2222222222222222]) State.reset)
      State.reset)) = okResp 0xF4CBE942FF5C66BB := by decide +kernel

/-- Program P3: CONSTRUCT_SEEDED.C, the 257th output of `InitC(5489)`. -/
theorem test_construct_seeded_C :
    answer (exec .nextRaw (after (exec (.constructSeeded .c [5489]) State.reset) State.reset)) =
      okResp 0x50E950BF550008C9 := by decide +kernel

/-- Program P4: the draws of the host, degraded seeding, STATUS = 0x9. -/
def p4State : State :=
  { State.reset with
    entropyIn := [{ valid := true, sample := 0xDEADBEEF }, { valid := false, sample := 3 }]
    timeIn := [0x0000000100000010, 0x0000000100000020] }

theorem test_construct_entropy_A :
    answer (exec .nextRaw (after (exec (.constructEntropy .a) p4State) p4State)) = okResp 0xF90A42657BA5DDCB := by
  decide +kernel

theorem test_construct_entropy_degraded_status :
    statusWord (after (exec (.constructEntropy .a) p4State) p4State) = 0x9 := by decide +kernel

/-- Program P2, line 1: the engine after CONSTRUCT_SEEDED.B 1, 2, 3, 4; line 4's raw word gives NEXT_DOUBLE. -/
theorem test_construct_seeded_B :
    (after (exec (.constructSeeded .b [1, 2, 3, 4]) State.reset) State.reset).engine =
      .b 0x724645A5A9DE4809 0x9D1368C84F47A611 0x16312D30AFA2AC7C 0x9783F09D6A060ECC := by decide +kernel

theorem test_next_raw_takes_one_step :
    exec .nextRaw (withEngine (.a 1 2)) = .next ((withEngine (.a 2 0x800023)).setResponses
      [{ code := .ok, value := 0x800025, bytes := [] }]) := by rfl

/-- Section 2.6: the word of program P2, line 4. -/
theorem test_next_double : answer (exec .nextDouble (withWords [0x7C57A2277F385092])) = okResp 0x3FDF15E889DFCE14 := by
  decide +kernel

theorem test_next_double_below_one :
    answer (exec .nextDouble (withWords [0xFFFFFFFFFFFFFFFF])) = okResp 0x3FEFFFFFFFFFFFFF := by decide +kernel

/-- I17: two rejections' worth of words, the second accepted. -/
theorem test_next_int_rejects :
    answer (exec (.nextInt .w64 false 0 9) (withWords [0, 3, 0x8000000000000000])) = okResp 0 ∧
      (after (exec (.nextInt .w64 false 0 9) (withWords [0, 3, 0x8000000000000000])) State.reset).engine =
        .c [0, 3, 0x8000000000000000] 2 := by decide +kernel

/-- I11: a signed result is sign-extended; I21: upper operand bits are ignored. -/
theorem test_next_int_signed :
    answer (exec (.nextInt .w8 true 0x80 0x7F) (withWords [0x7FFFFFFFFFFFFFFF])) = okResp 0xFFFFFFFFFFFFFFFF ∧
      answer (exec (.nextInt .w8 true 0xFFFFFFFFFFFFFFF6 0xA) (withWords [0x8000000000000000])) = okResp 0 := by
  decide +kernel

/-- F4 and F8: the redraw at MAX, and the degenerate range that keeps −0. -/
theorem test_next_float :
    answer (exec (.nextFloat .f64 0x3FF0000000000000 0x3FF0000000000001) (withWords [0xFFFFFFFFFFFFFFFF, 0])) =
        okResp 0x3FF0000000000000 ∧
      answer (exec (.nextFloat .f64 0x8000000000000000 0) (withWords [1])) = okResp 0x8000000000000000 := by
  decide +kernel

/-- F14 (binary32) and F10 (a span that overflows). -/
theorem test_next_float_f32_and_overflow :
    answer (exec (.nextFloat .f32 0xBF800000 0x3F800000) (withWords [0xFFFFFFFFFFFFFFFF])) = okResp 0x3F7FFFFE ∧
      answer (exec (.nextFloat .f64 0xFFEFFFFFFFFFFFFF 0x7FEFFFFFFFFFFFFF) (withWords [1])) = faultResp 1 := by
  decide +kernel

/-- Section 2.8, L9. -/
theorem test_fill_bytes :
    (after (exec (.fillBytes 0x1000 9) (withWords [0x0807060504030201, 0x100F0E0D0C0B0A09])) State.reset).mem =
      [(0x1000, 1), (0x1001, 2), (0x1002, 3), (0x1003, 4), (0x1004, 5), (0x1005, 6), (0x1006, 7), (0x1007, 8),
        (0x1008, 9)] := by decide +kernel

/-- Section 2.8, the bounds with ADDR_W = 64. -/
theorem test_fill_bytes_bounds :
    answer (exec (.fillBytes 0xFFFFFFFFFFFFFFF8 8) (withWords [0])) = okResp 0 ∧
      answer (exec (.fillBytes 0xFFFFFFFFFFFFFFF9 8) (withWords [0])) = faultResp 4 ∧
      answer (exec (.fillBytes 0xFFFFFFFFFFFFFFFF 0) (withWords [0])) = okResp 0 := by decide +kernel

theorem test_generate_bytes :
    answer (exec (.generateBytes 9) (withWords [0x0807060504030201, 0x100F0E0D0C0B0A09])) =
      some { code := .ok, value := 0, bytes := [1, 2, 3, 4, 5, 6, 7, 8, 9] } := by decide +kernel

/-- Section 2.9: after reset, `NEXT_INT.u8 5, 3` and `GENERATE_BYTES 0` raise NotConstructed; STATUS is 0x310. -/
theorem test_not_constructed_comes_first :
    answer (exec (.nextInt .w8 false 5 3) State.reset) = faultResp 3 ∧
      answer (exec (.generateBytes 0) State.reset) = faultResp 3 ∧
      statusWord (after (exec .nextRaw State.reset) State.reset) = 0x310 := by decide +kernel

/-- Section 2.9: a constructed C, `NEXT_INT.i32 10, 5`: STATUS is 0x115, and READ_STATUS still answers it. -/
theorem test_read_status_after_fault :
    let s := after (exec (.nextInt .w32 true 10 5) (withWords [0])) State.reset
    answer (exec .readStatus s) = okResp 0x115 ∧ answer (exec .nextRaw s) = refusedResp := by decide +kernel

/-- R84: the numbers of CODE. -/
theorem test_code_numbers : [RespCode.ok, .fault, .refused].map codeNumber = [0, 1, 2] := by decide

theorem test_read_min : answer (exec .readMin State.reset) = okResp 0 := by decide +kernel

theorem test_read_max : answer (exec .readMax State.reset) = okResp 0xFFFFFFFFFFFFFFFF := by decide +kernel

/-- Program P5, line 5: refused, both operand words consumed. -/
theorem test_refused_command_consumes_its_operands :
    let s := sendWords [0x0001, 1, 2, 0x0030] (faulted .notConstructed)
    answer (step s) = refusedResp ∧ (after (step s) s).inputs = [.word 0x0030] := by decide +kernel

/-- Program P5, line 7: an illegal header consumes no operand, STATUS is 0x210. -/
theorem test_illegal_header :
    let s := sendWords [0x0003, 0x0030] State.reset
    answer (step s) = faultResp 2 ∧ statusWord (after (step s) s) = 0x210 ∧
      (after (step s) s).inputs = [.word 0x0030] := by decide +kernel

/-- R250: reset drops a header whose operands have not all arrived. -/
theorem test_reset_discards_partial_command :
    let s := (faulted .illegalCommand).setInputs [.word 0x0001, .word 1, .reset, .word 0x0030]
    (after (step s) s).inputs = [.word 0x0030] ∧ (after (step s) s).responses = [] ∧
      statusWord (after (step s) s) = 0 := by decide +kernel

theorem test_withFetchWord_runs_the_command :
    answer (step (State.reset.withFetchWord 64 0x32)) = okResp 0xFFFFFFFFFFFFFFFF ∧
      (after (step (State.reset.withFetchWord 64 0x12)) State.reset).inputs = [] := by decide +kernel

/-! ## Witnesses: states and operands that meet the hypotheses of the statements -/

theorem witness_DecodeReadsBackEveryEncodedCommand : (Instr.constructSeeded .b [1, 2, 3, 4]).wellFormed = true := by
  decide

theorem witness_EveryDecodedCommandIsItsEncoding : decode [0x21, 5, 9] = .command (.generateBytes 5) [9] := by decide

theorem witness_StepRunsTheCommandAtThePort :
    (Instr.generateBytes 5).wellFormed = true ∧
      (sendWords [0x21, 5, 9] State.reset).inputs = (encode (.generateBytes 5)).map .word ++ [.word 9] := by decide

theorem witness_IllegalHeaderIsConsumedAlone :
    decodeHeader 3 = none ∧ (sendWords [3, 7] State.reset).inputs = .word 3 :: [.word 7] ∧
      (sendWords [3, 7] State.reset).status.fault = none ∧
      (sendWords [3, 7] (faulted .invalidRange)).inputs = .word 3 :: [.word 7] ∧
      (sendWords [3, 7] (faulted .invalidRange)).status.fault.isSome = true := by decide

theorem witness_BlockWaitsForMissingOperands :
    decodeHeader 0x101 = some (.constructSeeded .b) ∧
      ([1, 2, 3] : List Word).length < (Header.constructSeeded .b).operandCount ∧
      (sendWords [0x101, 1, 2, 3] State.reset).inputs = ([0x101, 1, 2, 3] : List Word).map .word := by decide

theorem witness_ResetClearsStatusAndKeepsMemory :
    decode [0x0001, 1] = .incomplete ∧ decode [] = .incomplete ∧
      (State.reset.setInputs [.word 0x0001, .word 1, .reset, .word 0x0030]).inputs =
        ([0x0001, 1] : List Word).map .word ++ .reset :: [.word 0x0030] := by decide

theorem witness_FaultedBlockRefusesAllButReadStatus :
    (faulted .bufferBounds).status.fault.isSome = true ∧ (Instr.readStatus).wellFormed = true ∧
      (sendWords [0x30] (faulted .bufferBounds)).inputs = (encode .readStatus).map .word ++ [] ∧
      (sendWords [0x10] (faulted .bufferBounds)).inputs = (encode .nextRaw).map .word ++ [] := by decide

theorem witness_OnlyResetClearsTheFault :
    (faulted .bufferBounds).status.fault = some .bufferBounds ∧
      step (faulted .bufferBounds) = .next (faulted .bufferBounds) ∧
      ∀ rest, fetch (faulted .bufferBounds).inputs ≠ .reset rest :=
  ⟨rfl, rfl, fun _ h => by cases h⟩

theorem witness_FaultsArePrecise :
    ∃ t, (sendWords [3] State.reset).status.fault = none ∧ step (sendWords [3] State.reset) = .next t ∧
      t.status.fault = some .illegalCommand := ⟨_, rfl, rfl, rfl⟩

theorem witness_DrawBeforeConstructionRaisesNotConstructed :
    State.reset.status.fault = none ∧ State.reset.status.constructed = false := by decide

theorem witness_EveryFinishedCommandSendsOneResponse :
    ∃ t, exec (.generateBytes 1) (withWords [5]) = .next t ∧
      t.responses = [{ code := .ok, value := 0, bytes := [5] }] := ⟨_, rfl, rfl⟩

theorem witness_no_fault : State.reset.status.fault = none ∧ ([7] : List Word).length = Variant.c.seedCount ∧
    ([7] : List Word).length ≠ Variant.a.seedCount := by decide

theorem witness_GatherSeedReadsTheDrawsInOrder :
    p4State.entropyIn = [{ valid := true, sample := 0xDEADBEEF }] ++ [{ valid := false, sample := 3 }] ∧
      p4State.timeIn = [0x0000000100000010] ++ [0x0000000100000020] ∧
      (p4State.lastTime :: [(0x0000000100000010 : Word)]).Pairwise (fun t u => t.toNat ≤ u.toNat) := by decide

theorem witness_TimestampReadsNeverDecrease : step State.reset = .next State.reset := rfl

theorem witness_AllZeroSeedIsAccepted : 2 ≤ defaultConfig.cN := by decide

theorem witness_RegenerationFollowsTheTwistRecurrence :
    1 ≤ plainConfig.cN ∧ ([1, 2, 3, 4, 5, 6, 7, 8] : List Word).length = plainConfig.cN := by decide

theorem witness_CommandsDependOnEngineAndStatusOnly :
    (∀ v, Instr.nextRaw ≠ .constructEntropy v) ∧ State.reset.cfg = (sendWords [1] State.reset).cfg ∧
      State.reset.engine = (sendWords [1] State.reset).engine ∧
      State.reset.status = (sendWords [1] State.reset).status :=
  ⟨fun _ => Instr.noConfusion, rfl, rfl, rfl⟩

/-- The one hypothesis of the results of NEXT_RAW, NEXT_DOUBLE, FILL_BYTES and GENERATE_BYTES. -/
theorem witness_ready : ready (withEngine (.a 1 2)) := by decide

theorem witness_UniformBelowIsTheUnboundedLoop : 1 ≤ 3 ∧ 3 < 2 ^ 64 := by decide

/-- I1: span + 1 = 3, the first word rejected and the second accepted (n = 1); and the full 64-bit range. -/
theorem witness_NextIntAnswersTheFirstAcceptedWord :
    ready (withWords [0, 0x8000000000000000]) ∧
      intValue .w64 false (intOperand .w64 0) ≤ intValue .w64 false (intOperand .w64 2) ∧
      intSpan .w64 (intOperand .w64 0) (intOperand .w64 2) = 2 ∧
      ¬ accepted 3 (rawWord plainConfig (.c [0, 0x8000000000000000] 0) 0) ∧
      accepted 3 (rawWord plainConfig (.c [0, 0x8000000000000000] 0) 1) ∧
      intSpan .w64 (intOperand .w64 0) (intOperand .w64 0xFFFFFFFFFFFFFFFF) = 2 ^ 64 - 1 ∧
      255 ≤ intSpan .w8 (intOperand .w8 0x80) (intOperand .w8 0x7F) ∧
      intValue .w8 true (intOperand .w8 0x80) ≤ intValue .w8 true (intOperand .w8 0x7F) := by decide +kernel

theorem witness_NextIntResultLiesInTheRange :
    answer (exec (.nextInt .w8 true 0x80 0x7F) (withWords [0xFF00000000000000])) = okResp 127 ∧
      (after (exec (.nextInt .w8 true 0x80 0x7F) (withWords [0xFF00000000000000])) State.reset).status.fault =
        none := by decide +kernel

theorem witness_EveryResultComesFromEquallyManyWords : 1 ≤ 3 ∧ 3 < 2 ^ 64 ∧ 2 < 3 := by decide

theorem witness_PowerOfTwoRangesTakeOneStep : 0 < 64 ∧ 63 < 64 := by decide

theorem witness_NextIntInvertedRangeRaisesInvalidRange :
    ready (withEngine (.a 1 2)) ∧
      intValue .w32 true (intOperand .w32 0xFFFFFFFB) < intValue .w32 true (intOperand .w32 5) := by decide +kernel

theorem witness_NextIntIgnoresUpperOperandBits :
    ∀ k, k < intBits .w8 → (0x00F6 : Word).getLsbD k = (0xFFFFFFFFFFFFFFF6 : Word).getLsbD k := by decide

theorem witness_FloatPatternsReadBack :
    ((0xFF800000 : Word).toNat < 2 ^ (fracBits .f32 + expBits .f32 + 1) ∧ floatOf .f32 0xFF800000 ≠ .nan) ∧
      2047 < 2 ^ expBits .f64 ∧ 2 ^ 52 - 1 < 2 ^ fracBits .f64 := by
  decide +kernel

/-- F4: the first result rounds to MAX, the second (n = 1) is taken. -/
theorem witness_NextFloatAnswersTheFirstResultBelowMax :
    let lov := floatOf .f64 0x3FF0000000000000
    let hiv := floatOf .f64 0x3FF0000000000001
    ready (withWords [0xFFFFFFFFFFFFFFFF, 0]) ∧ floatLt lov hiv = true ∧ isInfinite lov = false ∧
      isInfinite hiv = false ∧ isInfinite (floatSub .f64 hiv lov) = false ∧
      floatLt (affine .f64 lov (floatSub .f64 hiv lov)
        (rawWord plainConfig (.c [0xFFFFFFFFFFFFFFFF, 0] 0) 0)) hiv = false ∧
      floatLt (affine .f64 lov (floatSub .f64 hiv lov)
        (rawWord plainConfig (.c [0xFFFFFFFFFFFFFFFF, 0] 0) 1)) hiv = true := by decide +kernel

theorem witness_NextFloatResultLiesInTheHalfOpenRange :
    floatLt (floatOf .f64 0x3FF0000000000000) (floatOf .f64 0x4000000000000000) = true ∧
      answer (exec (.nextFloat .f64 0x3FF0000000000000 0x4000000000000000) (withWords [0x8000000000000000])) =
        okResp 0x3FF8000000000000 := by decide +kernel

/-- F8: −0 and +0. -/
theorem witness_NextFloatDegenerateRangeAnswersMin :
    floatEq (floatOf .f64 (floatOperand .f64 0x8000000000000000)) (floatOf .f64 (floatOperand .f64 0)) = true ∧
      isInfinite (floatOf .f64 (floatOperand .f64 0x8000000000000000)) = false := by decide +kernel

/-- F9, F11, F12 and F10, one for each kind of bad range. -/
theorem witness_NextFloatBadRangeRaisesInvalidRange :
    floatLt (floatOf .f64 0x3FF0000000000000) (floatOf .f64 0x4000000000000000) = true ∧
      floatOf .f64 0x7FF8000000000000 = .nan ∧ isInfinite (floatOf .f64 0x7FF0000000000000) = true ∧
      isInfinite (floatSub .f64 (floatOf .f64 0x7FEFFFFFFFFFFFFF) (floatOf .f64 0xFFEFFFFFFFFFFFFF)) = true := by
  decide +kernel

/-- An engine that stays at all zero gives 0 for ever (R134). -/
theorem zero_engine_word (n : Nat) : rawWord defaultConfig (.a 0 0) n = 0 := by
  have hstep : engineStep defaultConfig (.a 0 0) = (0, .a 0 0) := by decide +kernel
  induction n with
  | zero => simp only [rawWord, discardSteps, hstep]
  | succ n ih => rw [rawWord_succ, hstep]; exact ih

/-- Parameters and an engine that gives 0xFFFFFFFFFFFFFFFE for ever. -/
def stuckConfig : Config := { defaultConfig with aShift2 := 0, aShift3 := 64 }

def stuckEngine : Engine := .a 0xFFFFFFFFFFFFFFFF 0xFFFFFFFFFFFFFFFF

theorem stuck_engine_word (n : Nat) : rawWord stuckConfig stuckEngine n = 0xFFFFFFFFFFFFFFFE := by
  have hstep : engineStep stuckConfig stuckEngine = (0xFFFFFFFFFFFFFFFE, stuckEngine) := by decide +kernel
  induction n with
  | zero => simp only [rawWord, discardSteps, hstep]
  | succ n ih => rw [rawWord_succ, hstep]; exact ih

theorem witness_EndlessRejectionStopsByName_int :
    ready (withEngine (.a 0 0)) ∧ intSpan .w64 (intOperand .w64 0) (intOperand .w64 2) + 1 = 3 ∧
      ∀ k, ¬ accepted 3 (rawWord defaultConfig (.a 0 0) k) :=
  ⟨by decide, by decide +kernel, fun k => by rw [zero_engine_word]; decide +kernel⟩

theorem witness_EndlessRejectionStopsByName_float :
    let lov := floatOf .f64 0x3FF0000000000000
    let hiv := floatOf .f64 0x3FF0000000000001
    floatLt lov hiv = true ∧ isInfinite lov = false ∧ isInfinite hiv = false ∧
      isInfinite (floatSub .f64 hiv lov) = false ∧
      ∀ k, floatLt (affine .f64 lov (floatSub .f64 hiv lov) (rawWord stuckConfig stuckEngine k)) hiv = false :=
  ⟨by decide +kernel, by decide +kernel, by decide +kernel, by decide +kernel, fun k => by
    rw [stuck_engine_word]; decide +kernel⟩

/-- A state whose host memory refuses addresses 0x100 to 0x10F. -/
def refusing : State :=
  { withEngine (.a 1 2) with cfg := { defaultConfig with refused := [{ base := 0x100, size := 0x10 }] } }

/-- Each case of FILL_BYTES at the edge of its range: LEN = 0; BASE + LEN = 2^64 + 1; 2^64 with every byte admitted; the
last refused byte. -/
theorem witness_FillBytesByItsCases :
    ready refusing ∧ ¬ (1 : Word) = 0 ∧
      2 ^ refusing.cfg.addrW < (0xFFFFFFFFFFFFFFF9 : Word).toNat + (8 : Word).toNat ∧
      ¬ 2 ^ refusing.cfg.addrW < (0xFFFFFFFFFFFFFFF8 : Word).toNat + (8 : Word).toNat ∧
      admitsRange refusing.cfg 0x110 0xFFF = true ∧ admits refusing.cfg 0x10F = false ∧
      admits refusing.cfg 0x110 = true := by decide +kernel

theorem witness_FillBytesStops : exec (.fillBytes 0xFF 2) refusing = .fault .hostWriteRefused := by rfl

/-- A refused FILL_BYTES at the port, with `later` behind it. -/
def stuckFill (later : List HostEvent) : State :=
  refusing.setInputs ([.word 0x20, .word 0xFF, .word 2] ++ later)

/-- R226, U10: with no reset behind it the command is stuck; nothing is sent. R250 (log entry 21): a reset behind it is
taken, no byte is written, no response is sent, and STATUS reads 0. -/
theorem test_reset_frees_a_stuck_fill :
    step (stuckFill [.word 0x30]) = .fault .hostWriteRefused ∧
      let t := after (step (stuckFill [.word 0x10, .reset, .word 0x30])) refusing
      t.inputs = [.word 0x30] ∧ t.mem = [] ∧ t.responses = [] ∧ statusWord t = 0 := ⟨rfl, rfl, rfl, rfl, rfl⟩

/-- Each clause of the step on a stuck command: no reset behind it, and a reset behind one more word. -/
theorem witness_StepRunsTheCommandAtThePort_stuck :
    (stuckFill [.word 0x30]).inputs = (encode (.fillBytes 0xFF 2)).map .word ++ ([0x30] : List Word).map .word ∧
      exec (.fillBytes 0xFF 2) ((stuckFill [.word 0x30]).setInputs [.word 0x30]) = .fault .hostWriteRefused ∧
      (stuckFill [.word 0x10, .reset]).inputs =
        (encode (.fillBytes 0xFF 2)).map .word ++ (([0x10] : List Word).map .word ++ .reset :: []) ∧
      exec (.fillBytes 0xFF 2) ((stuckFill [.word 0x10, .reset]).setInputs [.word 0x10, .reset]) =
        .fault .hostWriteRefused := ⟨rfl, rfl, rfl, rfl⟩

theorem witness_FillBytesWritesExactlyTheBuffer :
    ∃ t, ready (withWords [0x0201]) ∧ exec (.fillBytes 0x10 2) (withWords [0x0201]) = .next t ∧
      t.status.fault = none := ⟨_, by decide, rfl, rfl⟩

theorem witness_FilledBytesAreLittleEndian : 8 < 9 := by decide

theorem witness_ReadCommandsFrame : ∃ t, exec .readMin State.reset = .next t := ⟨_, rfl⟩

theorem witness_DrawCommandsFrame :
    ∃ t, isDraw .nextRaw = true ∧ (∀ base len, Instr.nextRaw ≠ .fillBytes base len) ∧
      exec .nextRaw (withEngine (.a 1 2)) = .next t := ⟨_, rfl, fun _ _ => Instr.noConfusion, rfl⟩

theorem witness_FillBytesFrame : ∃ t, exec (.fillBytes 0x10 2) (withWords [0x0201]) = .next t := ⟨_, rfl⟩

theorem witness_ConstructCommandsFrame :
    (∃ t, exec (.constructSeeded .a [1, 2]) State.reset = .next t) ∧
      ∃ t, exec (.constructEntropy .a) State.reset = .next t := ⟨⟨_, rfl⟩, ⟨_, rfl⟩⟩

/-- The invariant can be met after a construction too, with Variant C and a byte written. -/
theorem witness_EveryStepKeepsTheInvariant :
    let s : State :=
      { withEngine (.c [1, 2] 2) with cfg := { defaultConfig with cN := 2 }, mem := [(3, 7), (9, 0)] }
    State.Inv s ∧ step s = .next s := ⟨by decide +kernel, rfl⟩

/-- The rotation at both ends of its range, and InitC with one word after the seed. -/
theorem witness_EngineStepsComputeTheirRules :
    (1 ≤ 1 ∧ 1 < 64) ∧ (1 ≤ 63 ∧ 63 < 64) ∧ 1 ≤ ({ defaultConfig with cN := 2 } : Config).cN ∧
      0 + 1 < ({ defaultConfig with cN := 2 } : Config).cN := by decide

theorem witness_EveryStepKeepsTheConfiguration : step State.reset = .next State.reset := rfl

end Sys2Proof.Tests
end

section
/-! PROOFS. Rounding to the nearest value, ties to even (R9). -/

namespace Sys2Proof.Machine

/-! ## The rounding shift -/

/-- `rneShift n d` times `2^d` is within half a step of `n`, and at exactly half a step the result is even. -/
theorem rneShift_within_half (n d : Nat) :
    2 * n ≤ 2 * (rneShift n d * 2 ^ d) + 2 ^ d ∧ 2 * (rneShift n d * 2 ^ d) ≤ 2 * n + 2 ^ d ∧
      (2 * n = 2 * (rneShift n d * 2 ^ d) + 2 ^ d ∨ 2 * (rneShift n d * 2 ^ d) = 2 * n + 2 ^ d →
        rneShift n d % 2 = 0) := by
  have hdiv : n / 2 ^ d * 2 ^ d + n % 2 ^ d = n := Nat.div_add_mod' n (2 ^ d)
  have hrem : n % 2 ^ d < 2 ^ d := Nat.mod_lt _ (Nat.two_pow_pos d)
  simp only [rneShift, Nat.shiftRight_eq_div_pow]
  split
  · rw [Nat.add_mul, Nat.one_mul]
    omega
  · omega

/-- A bound of `n` by a multiple of `2^d` bounds the rounded quotient. -/
theorem rneShift_le_of_le_mul {n d M : Nat} (h : n ≤ M * 2 ^ d) : rneShift n d ≤ M := by
  obtain ⟨-, hle, -⟩ := rneShift_within_half n d
  by_contra hlt
  have hstep : (M + 1) * 2 ^ d ≤ rneShift n d * 2 ^ d := Nat.mul_le_mul_right _ (by omega)
  have hpos := Nat.two_pow_pos d
  rw [Nat.succ_mul] at hstep
  omega

/-- A bound of a multiple of `2^d` by `n` bounds the rounded quotient. -/
theorem le_rneShift_of_mul_le {n d M : Nat} (h : M * 2 ^ d ≤ n) : M ≤ rneShift n d := by
  obtain ⟨hge, -, -⟩ := rneShift_within_half n d
  by_contra hlt
  have hstep : (rneShift n d + 1) * 2 ^ d ≤ M * 2 ^ d := Nat.mul_le_mul_right _ (by omega)
  have hpos := Nat.two_pow_pos d
  rw [Nat.succ_mul] at hstep
  omega

/-- An even integer is reached from half a step below it on: the tie goes to it. -/
theorem le_rneShift_iff_of_even {n d M : Nat} (hM : M % 2 = 0) :
    M ≤ rneShift n d ↔ 2 * (M * 2 ^ d) ≤ 2 * n + 2 ^ d := by
  obtain ⟨hge, hle, htie⟩ := rneShift_within_half n d
  constructor
  · intro h
    have : M * 2 ^ d ≤ rneShift n d * 2 ^ d := Nat.mul_le_mul_right _ h
    omega
  · intro h
    by_contra hlt
    have hstep : (rneShift n d + 1) * 2 ^ d ≤ M * 2 ^ d := Nat.mul_le_mul_right _ (by omega)
    rw [Nat.succ_mul] at hstep
    have heven : rneShift n d % 2 = 0 := htie (by omega)
    have hstep2 : (rneShift n d + 2) * 2 ^ d ≤ M * 2 ^ d := Nat.mul_le_mul_right _ (by omega)
    have hpos := Nat.two_pow_pos d
    rw [Nat.add_mul] at hstep2
    omega

/-- No integer multiple of `2^d` is nearer to `n` than the rounded one. -/
theorem rneShift_nearest (n d j : Nat) :
    (((rneShift n d * 2 ^ d : Nat) : Int) - n).natAbs ≤ (((j * 2 ^ d : Nat) : Int) - n).natAbs := by
  obtain ⟨hge, hle, -⟩ := rneShift_within_half n d
  rcases Nat.lt_trichotomy j (rneShift n d) with hlt | rfl | hgt
  · have hstep : (j + 1) * 2 ^ d ≤ rneShift n d * 2 ^ d := Nat.mul_le_mul_right _ hlt
    rw [Nat.succ_mul] at hstep
    omega
  · exact Nat.le_refl _
  · have hstep : (rneShift n d + 1) * 2 ^ d ≤ j * 2 ^ d := Nat.mul_le_mul_right _ hgt
    rw [Nat.succ_mul] at hstep
    omega

/-- Settles O40: the quotient is kept or raised by one as the remainder is below or above half of `2^d`. -/
theorem rneShiftRoundsToNearestTiesToEven : Obligations.RneShiftRoundsToNearestTiesToEven := by
  intro n d
  obtain ⟨hge, hle, htie⟩ := rneShift_within_half n d
  have hcast : (rneShift n d * 2 ^ d : Int) = ((rneShift n d * 2 ^ d : Nat) : Int) := by push_cast; rfl
  rw [hcast]
  exact ⟨by omega, fun h => htie (by omega)⟩

/-! ## Rounding to the precision of a format -/

section

variable (f : FloatWidth) (n k : Nat)

/-- `n / 2^k` units less the excess bits have at most `fracBits + 1` bits before the point. -/
theorem lt_two_pow_of_excessBits : n < 2 ^ (fracBits f + 1) * 2 ^ (k + excessBits f n k) := by
  rw [← Nat.pow_add]
  exact Nat.lt_log2_self.trans_le (Nat.pow_le_pow_right (by decide) (by unfold excessBits; omega))

/-- Bits are lost only when the ones kept have their leading bit set. -/
theorem two_pow_le_of_excessBits_pos (h : 0 < excessBits f n k) :
    2 ^ fracBits f * 2 ^ (k + excessBits f n k) ≤ n := by
  unfold excessBits at *
  have hn : n ≠ 0 := by rintro rfl; simp at h
  rw [← Nat.pow_add, ← Nat.le_log2 hn]
  omega

/-- The significand after rounding: `fracBits + 1` bits, or the power of two above them. -/
theorem rneShift_excessBits_le : rneShift n (k + excessBits f n k) ≤ 2 ^ (fracBits f + 1) :=
  rneShift_le_of_le_mul (lt_two_pow_of_excessBits f n k).le

theorem roundedUnits_eq :
    roundedUnits f n k = rneShift n (k + excessBits f n k) * 2 ^ excessBits f n k :=
  Nat.shiftLeft_eq _ _

/-- No value of `fracBits + 1` significant bits is nearer to `n / 2^k` units than the rounded one. -/
theorem roundedUnits_nearest {m q : Nat} (hm : m ≤ 2 ^ (fracBits f + 1)) :
    (((roundedUnits f n k * 2 ^ k : Nat) : Int) - n).natAbs ≤ (((m * 2 ^ q * 2 ^ k : Nat) : Int) - n).natAbs := by
  have hscale : roundedUnits f n k * 2 ^ k = rneShift n (k + excessBits f n k) * 2 ^ (k + excessBits f n k) := by
    rw [roundedUnits_eq]; ring
  rw [hscale]
  rcases Nat.lt_or_ge q (excessBits f n k) with hq | hq
  · -- A finer last place: such a value is at most the leading power of two, itself a multiple of the coarser place.
    have hlead := two_pow_le_of_excessBits_pos f n k (by omega)
    have hfine : m * 2 ^ q * 2 ^ k ≤ 2 ^ fracBits f * 2 ^ (k + excessBits f n k) := calc
      m * 2 ^ q * 2 ^ k ≤ 2 ^ (fracBits f + 1) * 2 ^ q * 2 ^ k := by gcongr
      _ = 2 ^ (fracBits f + 1 + q + k) := by rw [Nat.pow_add _ _ k, Nat.pow_add _ _ q]
      _ ≤ 2 ^ (fracBits f + (k + excessBits f n k)) := Nat.pow_le_pow_right (by decide) (by omega)
      _ = _ := Nat.pow_add ..
    have hnear := rneShift_nearest n (k + excessBits f n k) (2 ^ fracBits f)
    omega
  · obtain ⟨i, rfl⟩ := Nat.exists_eq_add_of_le hq
    have hmul : m * 2 ^ (excessBits f n k + i) * 2 ^ k = m * 2 ^ i * 2 ^ (k + excessBits f n k) := by ring
    rw [hmul]
    exact rneShift_nearest n (k + excessBits f n k) (m * 2 ^ i)

/-- The rounded value reaches `2^(fracBits + 1)` last places of `2^(a + 1)` units, so any power of two above that
precision, exactly from half a last place of `2^a` units below it on. -/
theorem two_pow_le_roundedUnits_iff (a : Nat) :
    2 ^ (fracBits f + 1) * 2 ^ (a + 1) ≤ roundedUnits f n k ↔
      2 * (2 ^ (fracBits f + 1) * 2 ^ (k + a)) ≤ n + 2 ^ (k + a) := by
  have hlt := lt_two_pow_of_excessBits f n k
  have hround := rneShift_excessBits_le f n k
  have hpos := Nat.two_pow_pos (k + a)
  have hhalf : 2 ^ (k + a) ≤ 2 ^ (fracBits f + 1) * 2 ^ (k + a) := Nat.le_mul_of_pos_left _ (Nat.two_pow_pos _)
  rw [roundedUnits_eq]
  rcases Nat.lt_trichotomy (excessBits f n k) (a + 1) with he | he | he
  · -- The last place is finer: neither side reaches the power of two.
    have hn : n < 2 ^ (fracBits f + 1) * 2 ^ (k + a) := hlt.trans_le (by gcongr <;> omega)
    have hr : rneShift n (k + excessBits f n k) * 2 ^ excessBits f n k < 2 ^ (fracBits f + 1) * 2 ^ (a + 1) :=
      Nat.mul_lt_mul_of_le_of_lt hround (Nat.pow_lt_pow_right (by decide) he) (Nat.two_pow_pos _)
    exact iff_of_false (Nat.not_le_of_lt hr) (by omega)
  · -- The power of two is the even significand `2^(fracBits + 1)` of this last place.
    rw [he, Nat.mul_le_mul_right_iff (Nat.two_pow_pos _),
      le_rneShift_iff_of_even (by simp [Nat.pow_succ]), ← Nat.add_assoc, Nat.pow_succ _ (k + a),
      ← Nat.mul_assoc (2 ^ (fracBits f + 1))]
    omega
  · -- The last place is coarser: the leading bit alone reaches the power of two on both sides.
    have hlead := two_pow_le_of_excessBits_pos f n k (by omega)
    have hr := le_rneShift_of_mul_le hlead
    have hn : 2 ^ (fracBits f + 1) * 2 ^ (k + a) * 2 ≤ n := calc
      2 ^ (fracBits f + 1) * 2 ^ (k + a) * 2 = 2 ^ fracBits f * 2 ^ (k + (a + 2)) := by ring
      _ ≤ 2 ^ fracBits f * 2 ^ (k + excessBits f n k) := by gcongr <;> omega
      _ ≤ n := hlead
    have hreach : 2 ^ (fracBits f + 1) * 2 ^ (a + 1) ≤
        rneShift n (k + excessBits f n k) * 2 ^ excessBits f n k := calc
      2 ^ (fracBits f + 1) * 2 ^ (a + 1) = 2 ^ fracBits f * 2 ^ (a + 2) := by ring
      _ ≤ _ := Nat.mul_le_mul hr (Nat.pow_le_pow_right (by decide) he)
    exact iff_of_true hreach (by omega)

/-- The infinities begin at the greatest finite value plus half its last place (R9). -/
theorem overflowUnits_le_roundedUnits_iff :
    overflowUnits f ≤ roundedUnits f n k ↔ (2 ^ (fracBits f + 2) - 1) * 2 ^ (expAllOnes f - 3) * 2 ^ k ≤ n := by
  have hexp : 3 ≤ expAllOnes f := by cases f <;> decide
  have hunits : overflowUnits f = 2 ^ (fracBits f + 1) * 2 ^ (expAllOnes f - 3 + 1) := by
    rw [overflowUnits, ← Nat.pow_add]
    congr 1
    omega
  rw [hunits, two_pow_le_roundedUnits_iff, ← Nat.mul_assoc, ← Nat.pow_succ', Nat.pow_add _ k, Nat.mul_comm (2 ^ k),
    Nat.mul_assoc _ _ (2 ^ k), Nat.sub_mul, Nat.one_mul, Nat.sub_le_iff_le_add]

end

/-! ## The operations on finite values -/

/-- A sum of finite values: an exact zero sum is -0 only when both operands are -0 (R9). -/
theorem floatAdd_fin (f : FloatWidth) (na nb : Bool) (ua ub : Nat) :
    floatAdd f (.fin na ua) (.fin nb ub) =
      if signedUnits na ua + signedUnits nb ub = 0 then
        .fin (decide (na = true ∧ ua = 0 ∧ nb = true ∧ ub = 0)) 0
      else roundFloat f (decide (signedUnits na ua + signedUnits nb ub < 0))
        (signedUnits na ua + signedUnits nb ub).natAbs 0 := by
  unfold floatAdd
  by_cases hzero : signedUnits na ua + signedUnits nb ub = 0
  · have hneg : (na && nb) = decide (na = true ∧ ua = 0 ∧ nb = true ∧ ub = 0) := by
      cases na <;> cases nb <;> simp [signedUnits] at hzero ⊢
      omega
    simp only [hzero, if_true, hneg]
  · simp only [hzero, if_false]

/-- Settles O41: the operations on finite values by their definitions; rounding by the cases of its last place. -/
theorem roundingFindsTheNearestValueOfTheFormat : Obligations.RoundingFindsTheNearestValueOfTheFormat := by
  refine ⟨fun f na nb ua ub => ⟨?_, rfl, rfl, rfl, rfl⟩, fun f n k => ⟨?_, fun m q hm => ?_, fun neg => ?_⟩⟩
  · exact floatAdd_fin f na nb ua ub
  · exact ⟨_, _, rneShift_excessBits_le f n k, roundedUnits_eq f n k⟩
  · exact_mod_cast roundedUnits_nearest f n k hm
  · simp only [roundFloat, overflowUnits_le_roundedUnits_iff]

end Sys2Proof.Machine
end

section
/-! PROOFS. The patterns of the floats and the values they stand for (R9, R78). -/

namespace Sys2Proof.Machine

/-- The number of a pattern by its fields: sign, exponent field and fraction field. -/
def patternOf (f : FloatWidth) (neg : Bool) (e m : Nat) : Nat :=
  signBit f neg + e * 2 ^ fracBits f + m

/-- The value of a pattern by its fields (IEEE 754). -/
def valueOf (f : FloatWidth) (neg : Bool) (e m : Nat) : FloatVal :=
  if e = 2 ^ expBits f - 1 then (if m = 0 then .inf neg else .nan)
  else if e = 0 then .fin neg m
  else .fin neg ((2 ^ fracBits f + m) * 2 ^ (e - 1))

/-- Every format fits in a word. -/
theorem format_bits_le (f : FloatWidth) : fracBits f + expBits f + 1 ≤ 64 := by cases f <;> decide

/-- The sign, the exponent field and the fraction field, each above the other. -/
theorem patternOf_eq (f : FloatWidth) (neg : Bool) (e m : Nat) :
    patternOf f neg e m = 2 ^ fracBits f * (2 ^ expBits f * neg.toNat + e) + m := by
  cases neg <;> simp [patternOf, signBit] <;> ring

section

variable {f : FloatWidth} {neg : Bool} {e m : Nat} (he : e < 2 ^ expBits f) (hm : m < 2 ^ fracBits f)
include he hm

theorem patternOf_lt : patternOf f neg e m < 2 ^ (fracBits f + expBits f + 1) := by
  have hhigh : 2 ^ expBits f * neg.toNat + e < 2 * 2 ^ expBits f := Nat.mul_add_lt_mul_of_lt_of_lt neg.toNat_lt he
  calc patternOf f neg e m = 2 ^ fracBits f * (2 ^ expBits f * neg.toNat + e) + m := patternOf_eq ..
    _ < 2 * 2 ^ expBits f * 2 ^ fracBits f := Nat.mul_add_lt_mul_of_lt_of_lt hhigh hm
    _ = 2 ^ (fracBits f + expBits f + 1) := by ring

theorem toNat_patternOf : (BitVec.ofNat 64 (patternOf f neg e m)).toNat = patternOf f neg e m := by
  rw [BitVec.toNat_ofNat]
  exact Nat.mod_eq_of_lt ((patternOf_lt he hm).trans_le (Nat.pow_le_pow_right (by decide) (format_bits_le f)))

/-- Reading a pattern finds its fields. -/
theorem floatOf_patternOf : floatOf f (BitVec.ofNat 64 (patternOf f neg e m)) = valueOf f neg e m := by
  have hfrac : patternOf f neg e m % 2 ^ fracBits f = m := by
    rw [patternOf_eq, Nat.mul_add_mod, Nat.mod_eq_of_lt hm]
  have hquot : patternOf f neg e m / 2 ^ fracBits f = 2 ^ expBits f * neg.toNat + e := by
    rw [patternOf_eq, Nat.mul_add_div (Nat.two_pow_pos _), Nat.div_eq_of_lt hm, Nat.add_zero]
  have hexpo : patternOf f neg e m / 2 ^ fracBits f % 2 ^ expBits f = e := by
    rw [hquot, Nat.mul_add_mod, Nat.mod_eq_of_lt he]
  have hsign : (BitVec.ofNat 64 (patternOf f neg e m)).getLsbD (fracBits f + expBits f) = neg := by
    rw [← BitVec.testBit_toNat, toNat_patternOf he hm, Nat.testBit_eq_decide_div_mod_eq, Nat.pow_add,
      ← Nat.div_div_eq_div_mul, hquot, Nat.mul_add_div (Nat.two_pow_pos _), Nat.div_eq_of_lt he]
    cases neg <;> rfl
  simp only [floatOf, toNat_patternOf he hm, Nat.shiftRight_eq_div_pow, Nat.shiftLeft_eq, hfrac, hexpo, hsign]
  rfl

end

/-- A number of units below `2^fracBits` is its own subnormal pattern. -/
theorem magnitudeBits_of_lt {f : FloatWidth} {m : Nat} (hm : m < 2 ^ fracBits f) : magnitudeBits f m = m := by
  have hlog : Nat.log2 m - fracBits f = 0 := by
    rcases Nat.eq_zero_or_pos m with rfl | hpos
    · simp
    · have := (Nat.log2_lt hpos.ne').2 hm
      omega
  simp [magnitudeBits, hlog]

/-- A significand with its leading bit, shifted by `q`, has the exponent field `q + 1` and the fraction without it. -/
theorem magnitudeBits_mul_two_pow {f : FloatWidth} {m : Nat} (hm : m < 2 ^ fracBits f) (q : Nat) :
    magnitudeBits f ((2 ^ fracBits f + m) * 2 ^ q) = (q + 1) * 2 ^ fracBits f + m := by
  have hpos := Nat.two_pow_pos (fracBits f)
  have hlog : Nat.log2 ((2 ^ fracBits f + m) * 2 ^ q) = fracBits f + q := by
    rw [Nat.log2_eq_iff (by positivity), Nat.add_right_comm, Nat.pow_add, Nat.pow_add]
    exact ⟨Nat.mul_le_mul_right _ (by omega), Nat.mul_lt_mul_of_pos_right (by omega) (Nat.two_pow_pos q)⟩
  rw [magnitudeBits, hlog, Nat.add_sub_cancel_left, Nat.shiftRight_eq_div_pow, Nat.mul_div_cancel _ (Nat.two_pow_pos q),
    Nat.succ_mul, Nat.add_assoc]

/-- Writing the value of fields gives their pattern, for every value but a NaN. -/
theorem floatBits_valueOf {f : FloatWidth} {neg : Bool} {e m : Nat} (hm : m < 2 ^ fracBits f)
    (hnan : valueOf f neg e m ≠ .nan) : floatBits f (valueOf f neg e m) = BitVec.ofNat 64 (patternOf f neg e m) := by
  unfold valueOf at *
  by_cases htop : e = 2 ^ expBits f - 1
  · by_cases hzero : m = 0
    · simp [htop, hzero, floatBits, patternOf, expAllOnes]
    · simp [htop, hzero] at hnan
  · rw [if_neg htop]
    cases e with
    | zero => simp [floatBits, patternOf, magnitudeBits_of_lt hm]
    | succ q => simp [floatBits, patternOf, magnitudeBits_mul_two_pow hm, Nat.add_assoc]

/-- Every pattern of a format has its fields. -/
theorem exists_patternOf {f : FloatWidth} {n : Nat} (hn : n < 2 ^ (fracBits f + expBits f + 1)) :
    ∃ neg e m, e < 2 ^ expBits f ∧ m < 2 ^ fracBits f ∧ n = patternOf f neg e m := by
  have hsign : n / 2 ^ fracBits f / 2 ^ expBits f < 2 := by
    rw [Nat.div_div_eq_div_mul, ← Nat.pow_add]
    exact Nat.div_lt_of_lt_mul hn
  refine ⟨decide (n / 2 ^ fracBits f / 2 ^ expBits f = 1), n / 2 ^ fracBits f % 2 ^ expBits f, n % 2 ^ fracBits f,
    Nat.mod_lt _ (Nat.two_pow_pos _), Nat.mod_lt _ (Nat.two_pow_pos _), ?_⟩
  have hneg : (decide (n / 2 ^ fracBits f / 2 ^ expBits f = 1)).toNat = n / 2 ^ fracBits f / 2 ^ expBits f := by
    obtain h | h := Nat.le_one_iff_eq_zero_or_eq_one.1 (Nat.le_of_lt_succ hsign)
    · simp [h]
    · simp [h]
  rw [patternOf_eq, hneg, Nat.div_add_mod, Nat.div_add_mod]

/-- The operand of a format is the low bits of its word (R78). -/
theorem floatOperand_toNat (f : FloatWidth) (x : Word) :
    (floatOperand f x).toNat = x.toNat % 2 ^ (fracBits f + expBits f + 1) := by
  cases f with
  | f64 => exact (Nat.mod_eq_of_lt x.isLt).symm
  | f32 => exact (BitVec.toNat_and ..).trans (Nat.and_two_pow_sub_one_eq_mod x.toNat 32)

/-- Settles O42: a pattern is cut into its fields, read by them and written back. -/
theorem floatPatternsReadBack : Obligations.FloatPatternsReadBack := by
  refine ⟨⟨rfl, rfl⟩, fun f neg e m he hm => floatOf_patternOf he hm, floatOperand_toNat, fun f b hb hnan => ?_⟩
  obtain ⟨neg, e, m, he, hm, hpattern⟩ := exists_patternOf hb
  obtain rfl : b = BitVec.ofNat 64 (patternOf f neg e m) := by rw [← hpattern, BitVec.ofNat_toNat, BitVec.setWidth_eq]
  rw [floatOf_patternOf he hm] at hnan ⊢
  exact floatBits_valueOf hm hnan

end Sys2Proof.Machine
end

section
/-! PROOFS. The bits of the STATUS register (R24, R30). -/

namespace Sys2Proof.Machine

/-- A flag shifted to bit `k` is bit `k`, and no other. -/
theorem getLsbD_flagBit_shiftLeft {i k : Nat} (b : Bool) (hi : i < 64) :
    (flagBit b <<< k).getLsbD i = (b && decide (i = k)) := by
  cases b with
  | false => simp [flagBit]
  | true =>
    simp only [flagBit, BitVec.getLsbD_shiftLeft, if_true, hi, Bool.true_and]
    grind

section

variable (s : State)

/-- Bit `i` of STATUS: each field, shifted to its place. -/
theorem getLsbD_statusWord {i : Nat} (hi : i < 64) :
    (statusWord s).getLsbD i =
      (s.status.constructed && decide (i = 0) || decide (1 ≤ i) && (statusVariant s).getLsbD (i - 1) ||
        s.status.degraded && decide (i = 3) || s.status.fault.isSome && decide (i = 4) ||
        decide (8 ≤ i) && (statusCause s).getLsbD (i - 8)) := by
  have hconstructed := getLsbD_flagBit_shiftLeft (k := 0) s.status.constructed hi
  rw [BitVec.shiftLeft_zero] at hconstructed
  simp only [statusWord, BitVec.getLsbD_or, getLsbD_flagBit_shiftLeft _ hi, hconstructed,
    BitVec.getLsbD_shiftLeft, hi, decide_true, Bool.true_and, ← decide_not, Nat.not_lt]

/-- VARIANT has no bit from 2 up (R24). -/
theorem getLsbD_statusVariant {i : Nat} (hi : 2 ≤ i) : (statusVariant s).getLsbD i = false := by
  have hlt : (statusVariant s).toNat < 2 ^ 2 := by
    unfold statusVariant
    split
    · cases engineVariant s.engine <;> decide
    · decide
  exact Nat.testBit_lt_two_pow (hlt.trans_le (Nat.pow_le_pow_right (by decide) hi))

/-- CAUSE has no bit from 4 up (R24). -/
theorem getLsbD_statusCause {i : Nat} (hi : 4 ≤ i) : (statusCause s).getLsbD i = false := by
  have hlt : (statusCause s).toNat < 2 ^ 4 := by
    unfold statusCause
    cases s.status.fault with
    | none => decide
    | some c => cases c <;> decide
  exact Nat.testBit_lt_two_pow (hlt.trans_le (Nat.pow_le_pow_right (by decide) hi))

/-- Bits 2:1 of STATUS are VARIANT. -/
theorem extractLsb'_statusWord_variant : (statusWord s).extractLsb' 1 2 = (statusVariant s).setWidth 2 := by
  refine BitVec.eq_of_getLsbD_eq fun i hi => ?_
  rw [BitVec.getLsbD_extractLsb', getLsbD_statusWord s (by omega)]
  simp [hi, show ¬ 8 ≤ 1 + i by omega, show 1 + i ≠ 3 by omega, show 1 + i ≠ 4 by omega]

/-- Bits 11:8 of STATUS are CAUSE. -/
theorem extractLsb'_statusWord_cause : (statusWord s).extractLsb' 8 4 = (statusCause s).setWidth 4 := by
  refine BitVec.eq_of_getLsbD_eq fun i hi => ?_
  rw [BitVec.getLsbD_extractLsb', getLsbD_statusWord s (by omega), getLsbD_statusVariant s (by omega)]
  simp [hi, show 8 + i ≠ 3 by omega, show 8 + i ≠ 4 by omega]

/-- A bit of no field is zero (R30). -/
theorem getLsbD_statusWord_reserved {i : Nat} (hi : i < 64) (hres : 5 ≤ i ∧ i < 8 ∨ 12 ≤ i) :
    (statusWord s).getLsbD i = false := by
  have hcause : (decide (8 ≤ i) && (statusCause s).getLsbD (i - 8)) = false := by
    rcases hres with hlow | hhigh
    · simp [hlow.2]
    · simp [getLsbD_statusCause s (show 4 ≤ i - 8 by omega)]
  rw [getLsbD_statusWord s hi, getLsbD_statusVariant s (by omega), hcause]
  simp [show i ≠ 0 by omega, show i ≠ 3 by omega, show i ≠ 4 by omega]

end

/-- Settles O15: no field reaches a reserved bit. -/
theorem reservedStatusBitsReadZero : Obligations.ReservedStatusBitsReadZero := by
  refine fun s => ⟨BitVec.eq_of_getLsbD_eq fun i hi => ?_, BitVec.eq_of_getLsbD_eq fun i hi => ?_⟩
  · simp [getLsbD_statusWord_reserved s (show 5 + i < 64 by omega) (by omega)]
  · simp [getLsbD_statusWord_reserved s (show 12 + i < 64 by omega) (by omega)]

/-- Settles O16: each field is read off the bits where `statusWord` puts it. -/
theorem statusFieldsStandAtTheirBits : Obligations.StatusFieldsStandAtTheirBits := by
  refine fun s => ⟨?_, ?_, ?_, ?_, ?_⟩
  · rw [getLsbD_statusWord s (by decide)]
    simp
  · rw [extractLsb'_statusWord_variant, statusVariant]
    split
    · cases engineVariant s.engine <;> rfl
    · rfl
  · rw [getLsbD_statusWord s (by decide), getLsbD_statusVariant s (by decide)]
    simp
  · rw [getLsbD_statusWord s (by decide), getLsbD_statusVariant s (by decide)]
    simp
  · rw [extractLsb'_statusWord_cause, statusCause]
    cases s.status.fault with
    | none => rfl
    | some c => cases c <;> rfl

/-- Settles O9: both by evaluation; no engine word without a value is read. -/
theorem resetStateReadsZeroStatusAndIdles : Obligations.ResetStateReadsZeroStatusAndIdles := ⟨rfl, rfl⟩

end Sys2Proof.Machine
end

section
/-! PROOFS. What a command can do to the state: one case per kind of effect (R210-R213, R222). -/

namespace Sys2Proof.Machine

/-! ## The engine after a draw is the engine after some steps -/

section

variable {cfg : Config} {e e' : Engine} {n : Nat}

/-- `UniformBelow` leaves the engine some steps on (R162). -/
theorem uniformBelow_engine {s j : Nat} (h : uniformBelow cfg s e = some (j, e')) :
    ∃ n, e' = discardSteps cfg n e := by
  simp only [uniformBelow] at h
  split at h
  · obtain ⟨n, -, -, -, -, he⟩ := rejectLoop_some h
    exact ⟨n + 1, he⟩
  · cases h
    exact ⟨1, rfl⟩

/-- The offset of NEXT_INT leaves the engine some steps on (R163). -/
theorem drawOffset_engine {span off : Nat} (h : drawOffset cfg span e = some (off, e')) :
    ∃ n, e' = discardSteps cfg n e := by
  unfold drawOffset at h
  split at h
  · cases h
    exact ⟨1, rfl⟩
  · exact uniformBelow_engine h

/-- The fill loop takes as many steps as it has words (R191). -/
theorem fillLoop_engine (cfg : Config) (words remaining : Nat) (e : Engine) :
    (fillLoop cfg words remaining e).2 = discardSteps cfg words e := by
  induction words generalizing remaining e with
  | zero => rfl
  | succ words ih => exact ih _ _

/-- With enough words for the remaining bytes, the fill loop emits all of them (R191). -/
theorem fillLoop_length (cfg : Config) {words remaining : Nat} (e : Engine) (h : remaining ≤ 8 * words) :
    (fillLoop cfg words remaining e).1.length = remaining := by
  induction words generalizing remaining e with
  | zero => simp [fillLoop]; omega
  | succ words ih =>
    rw [fillLoop_succ, List.length_append, lowBytes_length, ih _ (by omega)]
    omega

/-- `Fill(L)` takes ceil(L / 8) steps (R193). -/
theorem fill_engine (cfg : Config) (len : Nat) (e : Engine) :
    (fill cfg len e).2 = discardSteps cfg (fillSteps len) e := fillLoop_engine ..

/-- `Fill(L)` emits L bytes (R193). -/
theorem fill_length (cfg : Config) (len : Nat) (e : Engine) : (fill cfg len e).1.length = len :=
  fillLoop_length cfg e (by unfold fillSteps; omega)

end

/-! ## The effects -/

/-- Everything a command that goes on, or an illegal header, can make of the state `s`. -/
inductive CommandEffect (s : State) : State → Prop where
  /-- A response alone: a refusal, a read, or a fill of no bytes. -/
  | responds (code : RespCode) (value : Word) (bytes : List Byte) : CommandEffect s (respond code value bytes s)
  /-- A fault, in a block that had none (R222). -/
  | raises (c : Cause) (hf : s.status.fault = none) : CommandEffect s (raiseFault c s)
  /-- CONSTRUCT_SEEDED (R135). -/
  | constructsSeeded (v : Variant) (seed : List Word) (hf : s.status.fault = none)
      (hlen : seed.length = v.seedCount) :
    CommandEffect s (respondOk 0 [] (installEngine (constructEngine s.cfg v seed) false s))
  /-- CONSTRUCT_ENTROPY, with the seed gathered from the ports (R136). -/
  | constructsEntropy (v : Variant) (hf : s.status.fault = none) :
    CommandEffect s (respondOk 0 [] (installEngine
      (constructEngine (gatherSeed v.seedCount s).2.2.cfg v (gatherSeed v.seedCount s).1)
      (gatherSeed v.seedCount s).2.1 (gatherSeed v.seedCount s).2.2))
  /-- A draw of `n` engine steps, answered in the response (R211). -/
  | draws (n : Nat) (value : Word) (bytes : List Byte) (hr : ready s) :
    CommandEffect s (respondOk value bytes (s.setEngine (discardSteps s.cfg n s.engine)))
  /-- A draw of `n` engine steps, its bytes written to a buffer inside the address space (R190). -/
  | fills (n base : Nat) (bytes : List Byte) (hr : ready s) (hfits : base + bytes.length ≤ 2 ^ s.cfg.addrW) :
    CommandEffect s
      (respondOk 0 [] ((s.setEngine (discardSteps s.cfg n s.engine)).setMem (writeBytes s.mem base bytes)))

section

variable {s t : State} {body : State → Host.Outcome State Fault Refusal}

/-- The first gate adds the refusal to the effects of its body (R223). -/
theorem CommandEffect.of_unlessFaulted (h : unlessFaulted s body = .next t)
    (hbody : s.status.fault = none → body s = .next t → CommandEffect s t) : CommandEffect s t := by
  rcases unlessFaulted_cases h with ⟨-, ht⟩ | ⟨hf, hb⟩
  · cases ht
    exact .responds ..
  · exact hbody hf hb

/-- The gates of a draw command add the refusal and NotConstructed to the effects of its body (R211). -/
theorem CommandEffect.of_whenConstructed (h : whenConstructed s body = .next t)
    (hbody : ready s → body s = .next t → CommandEffect s t) : CommandEffect s t := by
  rcases whenConstructed_cases h with ⟨-, ht⟩ | ⟨hf, -, ht⟩ | ⟨hf, hc, hb⟩
  · cases ht
    exact .responds ..
  · cases ht
    exact .raises _ hf
  · exact hbody ⟨hf, hc⟩ hb

/-- An illegal header is refused or raises IllegalCommand (R80). -/
theorem execIllegalHeader_effect (h : execIllegalHeader s = .next t) : CommandEffect s t :=
  .of_unlessFaulted h fun hf hb => by
    cases hb
    exact .raises _ hf

/-- NEXT_INT raises InvalidRange or draws (R163). -/
theorem execNextInt_effect {w : IntWidth} {signed : Bool} {lo hi : Word}
    (h : execNextInt w signed lo hi s = .next t) : CommandEffect s t :=
  .of_whenConstructed h fun hr hb => by
    dsimp only at hb
    split at hb
    · cases hb
      exact .raises _ hr.1
    · split at hb
      · cases hb
      · rename_i hdraw
        obtain ⟨n, rfl⟩ := drawOffset_engine hdraw
        cases hb
        exact .draws n _ _ hr

/-- NEXT_FLOAT raises InvalidRange or draws, once in the degenerate range (R169, R171). -/
theorem execNextFloat_effect {f : FloatWidth} {lo hi : Word}
    (h : execNextFloat f lo hi s = .next t) : CommandEffect s t :=
  .of_whenConstructed h fun hr hb => by
    dsimp only at hb
    split at hb
    · cases hb
      exact .raises _ hr.1
    · split at hb
      · cases hb
        exact .draws 1 _ _ hr
      · split at hb
        · cases hb
        · rename_i hloop
          obtain ⟨n, -, -, -, -, rfl⟩ := floatLoop_some hloop
          cases hb
          exact .draws (n + 1) _ _ hr

/-- FILL_BYTES answers a fill of no bytes, raises BufferBounds, or draws and writes (R190). -/
theorem execFillBytes_effect {base len : Word} (h : execFillBytes base len s = .next t) : CommandEffect s t :=
  .of_whenConstructed h fun hr hb => by
    dsimp only at hb
    split at hb
    · cases hb
      exact .responds ..
    · split at hb
      · cases hb
        exact .raises _ hr.1
      · split at hb
        · rename_i hlong _
          cases hb
          rw [fill_engine]
          refine .fills _ _ _ hr ?_
          rw [fill_length]
          simpa [bufferTooLong] using hlong
        · cases hb

/-- Everything a command can do when it goes on (R213). -/
theorem exec_effect {i : Instr} (h : exec i s = .next t) : CommandEffect s t := by
  unfold exec at h
  cases i with
  | constructSeeded v seed =>
    refine .of_unlessFaulted h fun hf hb => ?_
    split at hb
    · rename_i hlen
      cases hb
      exact .constructsSeeded v seed hf hlen
    · cases hb
  | constructEntropy v =>
    refine .of_unlessFaulted h fun hf hb => ?_
    cases hb
    exact .constructsEntropy v hf
  | nextRaw =>
    refine .of_whenConstructed h fun hr hb => ?_
    cases hb
    exact .draws 1 _ _ hr
  | nextDouble =>
    refine .of_whenConstructed h fun hr hb => ?_
    cases hb
    exact .draws 1 _ _ hr
  | nextInt w signed lo hi => exact execNextInt_effect h
  | nextFloat f lo hi => exact execNextFloat_effect h
  | fillBytes base len => exact execFillBytes_effect h
  | generateBytes count =>
    refine .of_whenConstructed h fun hr hb => ?_
    dsimp only at hb
    cases hb
    rw [fill_engine]
    exact .draws _ _ _ hr
  | readStatus =>
    cases h
    exact .responds ..
  | readMin =>
    refine .of_unlessFaulted h fun _ hb => ?_
    cases hb
    exact .responds ..
  | readMax =>
    refine .of_unlessFaulted h fun _ hb => ?_
    cases hb
    exact .responds ..

/-- While faulted, a draw command is REFUSED and nothing else happens (R223). -/
theorem whenConstructed_faulted (hf : s.status.fault.isSome = true) :
    whenConstructed s body = .next (respond .refused 0 [] s) := unlessFaulted_faulted hf

/-- While faulted, a command sends one response and does nothing else (R223). -/
theorem exec_of_faulted (i : Instr) (hf : s.status.fault.isSome = true) :
    ∃ code value, exec i s = .next (respond code value [] s) := by
  unfold exec
  cases i with
  | readStatus => exact ⟨_, _, rfl⟩
  | constructSeeded | constructEntropy | readMin | readMax => exact ⟨_, _, unlessFaulted_faulted hf⟩
  | nextRaw | nextDouble | nextInt | nextFloat | fillBytes | generateBytes =>
    exact ⟨_, _, whenConstructed_faulted hf⟩

/-- A command is stuck only while the block is not faulted. -/
theorem fault_none_of_exec_fault {i : Instr} {f : Fault} (h : exec i s = .fault f) : s.status.fault = none := by
  by_contra hne
  obtain ⟨code, value, hnext⟩ := exec_of_faulted i (Option.isSome_iff_ne_none.2 hne)
  cases hnext.symm.trans h

/-! ## The step -/

/-- Everything a step that goes on can do: wait, take a reset, take the reset behind a stuck command, or run a command
or an illegal header with its words consumed (R212, R213, R250). -/
theorem step_cases (h : step s = .next t) :
    t = s ∨
      (∃ rest, fetch s.inputs = .reset rest ∧ t = assertReset (s.setInputs rest)) ∨
      (∃ evs, s.status.fault = none ∧ t = assertReset (s.setInputs evs)) ∨
      ∃ rest, CommandEffect (s.setInputs rest) t := by
  unfold step at h
  split at h
  · cases h
    exact .inl rfl
  · rename_i rest hfetch
    cases h
    exact .inr (.inl ⟨rest, hfetch, rfl⟩)
  · exact .inr (.inr (.inr ⟨_, execIllegalHeader_effect h⟩))
  · rcases resetIfStuck_cases h with hnext | ⟨f, evs, hstuck, ht⟩
    · exact .inr (.inr (.inr ⟨_, exec_effect hnext⟩))
    · have hf := fault_none_of_exec_fault hstuck
      exact .inr (.inr (.inl ⟨evs, hf, ht⟩))

end

/-- Settles O18: while not faulted, the reads pass the gate and answer the constants. -/
theorem readMinAndReadMaxAnswerTheBounds : Obligations.ReadMinAndReadMaxAnswerTheBounds :=
  fun _ hf => ⟨unlessFaulted_clear (body := fun s => .next (respondOk engineMin [] s)) hf,
    unlessFaulted_clear (body := fun s => .next (respondOk engineMax [] s)) hf⟩

end Sys2Proof.Machine
end

section
/-! PROOFS. What every step keeps: the parameters, a fault that is there, and the invariant (R6, R20, R29). -/

namespace Sys2Proof.Machine

section

variable {s t : State}

/-! ## The effects of a command -/

/-- No command changes the parameters (R6). -/
theorem CommandEffect.cfg_eq (h : CommandEffect s t) : t.cfg = s.cfg := by
  cases h with
  | constructsEntropy v => exact gatherSeed_cfg v.seedCount s
  | responds | raises | constructsSeeded | draws | fills => rfl

/-- No command clears or replaces a fault (R29). -/
theorem CommandEffect.fault_eq {c : Cause} (h : CommandEffect s t) (hc : s.status.fault = some c) :
    t.status.fault = some c := by
  cases h with
  | raises _ hf | constructsSeeded _ _ hf | constructsEntropy _ hf => cases hf.symm.trans hc
  | responds | draws | fills => exact hc

/-! ## The invariant -/

/-- Variant C has a state word (R128). -/
theorem one_le_cN {cfg : Config} (h : configWf cfg) : 1 ≤ cfg.cN := by
  obtain ⟨-, -, -, -, -, -, -, -, -, -, hN, -⟩ := h
  exact hN

/-- A constructed engine with the STATUS a CONSTRUCT writes meets the invariant (R133). -/
theorem installEngine_inv (v : Variant) (seed : List Word) (degraded : Bool) (h : State.Inv s) :
    State.Inv (installEngine (constructEngine s.cfg v seed) degraded s) := by
  obtain ⟨hcfg, -, -, hmem, hspace⟩ := h
  exact ⟨hcfg, constructEngine_wf s.cfg (one_le_cN hcfg) v seed, rfl, hmem, hspace⟩

/-- Seed gathering changes nothing the invariant speaks of (R104). -/
theorem gatherSeed_inv (k : Nat) (h : State.Inv s) : State.Inv (gatherSeed k s).2.2 := by
  simpa [State.Inv, statusWf, memInSpace] using h

/-- Engine steps keep the invariant (R122). -/
theorem setEngine_discardSteps_inv (n : Nat) (h : State.Inv s) :
    State.Inv (s.setEngine (discardSteps s.cfg n s.engine)) := by
  obtain ⟨hcfg, hengine, hstatus, hmem, hspace⟩ := h
  exact ⟨hcfg, discardSteps_wf s.cfg (one_le_cN hcfg) n hengine, by simpa [statusWf] using hstatus, hmem, hspace⟩

/-- Byte writes inside the address space keep the invariant (R50). -/
theorem setMem_writeBytes_inv {base : Nat} {bytes : List Byte} (h : State.Inv s)
    (hfits : base + bytes.length ≤ 2 ^ s.cfg.addrW) : State.Inv (s.setMem (writeBytes s.mem base bytes)) := by
  obtain ⟨hcfg, hengine, hstatus, hmem, hspace⟩ := h
  exact ⟨hcfg, hengine, hstatus, writeBytes_wf bytes hmem, writeBytes_below bytes hspace hfits⟩

/-- Reset keeps the invariant (R36, R250). -/
theorem assertReset_inv (h : State.Inv s) : State.Inv (assertReset s) := by
  obtain ⟨hcfg, -, -, hmem, hspace⟩ := h
  exact ⟨hcfg, rfl, rfl, hmem, hspace⟩

/-- Every command keeps the invariant. -/
theorem CommandEffect.inv (h : CommandEffect s t) (hs : State.Inv s) : State.Inv t := by
  cases h with
  | responds | raises => exact hs
  | constructsSeeded v seed => exact installEngine_inv (s := s) v seed false hs
  | constructsEntropy v => exact installEngine_inv (s := (gatherSeed v.seedCount s).2.2) v _ _ (gatherSeed_inv v.seedCount hs)
  | draws n => exact setEngine_discardSteps_inv n hs
  | fills n base bytes hr hfits => exact setMem_writeBytes_inv (setEngine_discardSteps_inv n hs) hfits

end

/-! ## The obligations -/

/-- Settles O58: a step waits, resets, or has a command's effect, and each keeps the invariant. -/
theorem everyStepKeepsTheInvariant : Obligations.EveryStepKeepsTheInvariant := by
  intro s t hs h
  rcases step_cases h with rfl | ⟨rest, -, rfl⟩ | ⟨evs, -, rfl⟩ | ⟨rest, heffect⟩
  · exact hs
  · exact assertReset_inv (s := s.setInputs rest) hs
  · exact assertReset_inv (s := s.setInputs evs) hs
  · exact heffect.inv hs

/-- Settles O11: only an unfaulted block has a stuck command to give way to a reset, and no command clears a fault. -/
theorem onlyResetClearsTheFault : Obligations.OnlyResetClearsTheFault := by
  intro s t c hc h hreset
  rcases step_cases h with rfl | ⟨rest, hfetch, -⟩ | ⟨-, hf, -⟩ | ⟨rest, heffect⟩
  · exact hc
  · exact absurd hfetch (hreset rest)
  · cases hf.symm.trans hc
  · exact heffect.fault_eq hc

/-- Settles O59: a reset and the effects of a command leave the parameters. -/
theorem everyStepKeepsTheConfiguration : Obligations.EveryStepKeepsTheConfiguration := by
  intro s t h
  rcases step_cases h with rfl | ⟨rest, -, rfl⟩ | ⟨evs, -, rfl⟩ | ⟨rest, heffect⟩
  · rfl
  · rfl
  · rfl
  · exact heffect.cfg_eq

/-- Settles O57: the default parameters are in their ranges, nothing is constructed and no byte is listed. -/
theorem resetStateMeetsTheInvariant : Obligations.ResetStateMeetsTheInvariant :=
  ⟨by decide, rfl, rfl, reset_mem_wf, fun _ hp => nomatch hp⟩

end Sys2Proof.Machine
end

section
/-! PROOFS. The bytes of the byte filler (R53, R191). -/

namespace Sys2Proof.Machine

/-- With enough words for the remaining bytes, the fill loop emits the bytes of its raw words in order: the first
word gives offsets 0 .. 7, the later passes give the rest from one engine step on (R191). -/
theorem fillLoop_getElem? (cfg : Config) {words remaining o : Nat} (e : Engine) (h : remaining ≤ 8 * words)
    (ho : o < remaining) :
    (fillLoop cfg words remaining e).1[o]? = some (wordByte (rawWord cfg e (o / 8)) (o % 8)) := by
  induction words generalizing remaining o e with
  | zero => omega
  | succ words ih =>
    rw [fillLoop_succ]
    by_cases hfirst : o < 8
    · have hlow : o < min 8 remaining := by omega
      rw [List.getElem?_append_left (by simpa using hlow), lowBytes_getElem? hlow, Nat.div_eq_of_lt hfirst,
        Nat.mod_eq_of_lt hfirst]
      rfl
    · obtain ⟨p, rfl⟩ := Nat.exists_eq_add_of_le' (Nat.le_of_not_lt hfirst)
      have hmin : min 8 remaining = 8 := by omega
      rw [hmin, List.getElem?_append_right (by simp), lowBytes_length, Nat.add_sub_cancel,
        ih _ (by omega) (by omega), rawWord_step, Nat.add_div_right p (by decide), Nat.add_mod_right]

/-- Settles O51: `fill` runs the loop with ceil(L / 8) words, enough for its L bytes. -/
theorem filledBytesAreLittleEndian : Obligations.FilledBytesAreLittleEndian :=
  fun cfg _ e _ ho => fillLoop_getElem? cfg e (by unfold fillSteps; omega) ho

end Sys2Proof.Machine
end

section
/-! PROOFS. Decoding and encoding read each other back (R70-R82, R88). -/

namespace Sys2Proof

/-! ## A header word and its fields (R71) -/

/-- A word is the sum of its header fields, each at its place (R71). -/
theorem toNat_eq_fields (h : Word) :
    h.toNat = (opcField h).toNat + 2 ^ 8 * (varField h).toNat + 2 ^ 10 * (wcField h).toNat +
      2 ^ 12 * (sgnField h).toNat + 2 ^ 13 * (fwField h).toNat + 2 ^ 14 * (reservedField h).toNat := by
  simp only [opcField, varField, wcField, sgnField, fwField, reservedField, BitVec.extractLsb'_toNat,
    Nat.shiftRight_eq_div_pow]
  omega

/-- Bits 13:8 are the fields VAR, WC, SGN and FW. -/
theorem toNat_fieldsField (h : Word) :
    (fieldsField h).toNat = (varField h).toNat + 2 ^ 2 * (wcField h).toNat + 2 ^ 4 * (sgnField h).toNat +
      2 ^ 5 * (fwField h).toNat := by
  simp only [fieldsField, varField, wcField, sgnField, fwField, BitVec.extractLsb'_toNat, Nat.shiftRight_eq_div_pow]
  omega

/-- The number of a variant is the field VAR it is read from (R73). -/
theorem toNat_of_variantOf {b : BitVec 2} {v : Variant} (h : variantOf b = some v) : b.toNat = v.var.toNat := by
  unfold variantOf at h
  split_ifs at h with ha hb hc
  · cases h
    rw [ha]
    rfl
  · cases h
    rw [hb]
    rfl
  · cases h
    rw [hc]
    rfl

/-- The number of an integer width is the field WC it is read from (R74). -/
theorem toNat_wc_intWidthOf : ∀ b : BitVec 2, (intWidthOf b).wc.toNat = b.toNat := by decide

/-- The number of a float format is the field FW it is read from (R75). -/
theorem toNat_fw_floatWidthOf : ∀ b : BitVec 1, (floatWidthOf b).fw.toNat = b.toNat := by decide


/-! ## Header words (R82, R88) -/

theorem toNat_word_constructSeeded (v : Variant) :
    (Header.constructSeeded v).word.toNat = 0x01 + 2 ^ 8 * v.var.toNat := by cases v <;> rfl

theorem toNat_word_constructEntropy (v : Variant) :
    (Header.constructEntropy v).word.toNat = 0x02 + 2 ^ 8 * v.var.toNat := by cases v <;> rfl

theorem toNat_word_nextInt (w : IntWidth) (b : BitVec 1) :
    (Header.nextInt w (b == 1)).word.toNat = 0x12 + 2 ^ 10 * w.wc.toNat + 2 ^ 12 * b.toNat := by
  revert b
  cases w <;> decide

theorem toNat_word_nextFloat (f : FloatWidth) :
    (Header.nextFloat f).word.toNat = 0x13 + 2 ^ 13 * f.fw.toNat := by cases f <;> rfl

section

variable {h : Word} {hd : Header} {opc : BitVec 8} (hres : reservedField h = 0) (hopc : opcField h = opc)
include hres hopc

/-- A legal header of an opcode that uses no field is the header word of that opcode (R80). -/
theorem eq_word_of_plainHeader {hd' : Header} (hword : hd'.word.toNat = opc.toNat)
    (hh : plainHeader h hd' = some hd) : h = hd.word := by
  obtain ⟨hfields, hhd⟩ := Option.ite_none_left_eq_some.1 hh
  cases hhd
  have hzero := toNat_fieldsField h
  simp only [not_not.1 hfields, BitVec.ofNat_eq_ofNat, BitVec.toNat_zero] at hzero
  apply BitVec.eq_of_toNat_eq
  simp only [hword, toNat_eq_fields h, hres, hopc, BitVec.ofNat_eq_ofNat, BitVec.toNat_zero]
  omega

/-- A legal header of an opcode that uses the field VAR only is the header word of that opcode and variant (R80). -/
theorem eq_word_of_variantHeader {mk : Variant → Header}
    (hword : ∀ v, (mk v).word.toNat = opc.toNat + 2 ^ 8 * v.var.toNat)
    (hh : (if wcField h ≠ 0 ∨ sgnField h ≠ 0 ∨ fwField h ≠ 0 then none
      else (variantOf (varField h)).map mk) = some hd) : h = hd.word := by
  obtain ⟨hzero, hh⟩ := Option.ite_none_left_eq_some.1 hh
  obtain ⟨v, hv, rfl⟩ := Option.map_eq_some_iff.1 hh
  simp only [not_or, not_not] at hzero
  obtain ⟨hwc, hsgn, hfw⟩ := hzero
  apply BitVec.eq_of_toNat_eq
  rw [hword, ← toNat_of_variantOf hv, toNat_eq_fields h, hopc, hres, hwc, hsgn, hfw]
  rfl

end

/-- A legal header is the header word of what it decodes to, every field in its place (R82). -/
theorem eq_word_of_decodeHeader {h : Word} {hd : Header} (hh : decodeHeader h = some hd) : h = hd.word := by
  obtain ⟨hres, hh⟩ := Option.ite_none_left_eq_some.1 hh
  replace hres := not_not.1 hres
  obtain ⟨hopc, hh⟩ | ⟨-, hh⟩ := ite_eq_iff.1 hh
  · exact eq_word_of_variantHeader hres hopc toNat_word_constructSeeded hh
  obtain ⟨hopc, hh⟩ | ⟨-, hh⟩ := ite_eq_iff.1 hh
  · exact eq_word_of_variantHeader hres hopc toNat_word_constructEntropy hh
  obtain ⟨hopc, hh⟩ | ⟨-, hh⟩ := ite_eq_iff.1 hh
  · obtain ⟨hzero, hh⟩ := Option.ite_none_left_eq_some.1 hh
    cases hh
    simp only [not_or, not_not] at hzero
    obtain ⟨hvar, hfw⟩ := hzero
    apply BitVec.eq_of_toNat_eq
    rw [toNat_word_nextInt, toNat_wc_intWidthOf, toNat_eq_fields h, hopc, hres, hvar, hfw]
    rfl
  obtain ⟨hopc, hh⟩ | ⟨-, hh⟩ := ite_eq_iff.1 hh
  · obtain ⟨hzero, hh⟩ := Option.ite_none_left_eq_some.1 hh
    cases hh
    simp only [not_or, not_not] at hzero
    obtain ⟨hvar, hwc, hsgn⟩ := hzero
    apply BitVec.eq_of_toNat_eq
    rw [toNat_word_nextFloat, toNat_fw_floatWidthOf, toNat_eq_fields h, hopc, hres, hvar, hwc, hsgn]
    rfl
  -- The seven opcodes that use no field.
  iterate 7
    obtain ⟨hopc, hh⟩ | ⟨-, hh⟩ := ite_eq_iff.1 hh
    · exact eq_word_of_plainHeader hres hopc rfl hh
  cases hh

/-- Every header is decoded from its own header word (R82). -/
theorem decodeHeader_word (hd : Header) : decodeHeader hd.word = some hd := by
  cases hd with
  | constructSeeded v => exact Laws.HeaderRoundTrip.constructSeeded v []
  | constructEntropy v => exact Laws.HeaderRoundTrip.constructEntropy v
  | nextRaw => exact Laws.HeaderRoundTrip.nextRaw
  | nextDouble => exact Laws.HeaderRoundTrip.nextDouble
  | nextInt w signed => exact Laws.HeaderRoundTrip.nextInt w signed 0 0
  | nextFloat f => exact Laws.HeaderRoundTrip.nextFloat f 0 0
  | fillBytes => exact Laws.HeaderRoundTrip.fillBytes 0 0
  | generateBytes => exact Laws.HeaderRoundTrip.generateBytes 0
  | readStatus => exact Laws.HeaderRoundTrip.readStatus
  | readMin => exact Laws.HeaderRoundTrip.readMin
  | readMax => exact Laws.HeaderRoundTrip.readMax

/-- The decoder and the encoder of headers are inverse to each other (R82). -/
theorem decodeHeader_eq_some_iff {h : Word} {hd : Header} : decodeHeader h = some hd ↔ h = hd.word :=
  ⟨eq_word_of_decodeHeader, fun hh => hh ▸ decodeHeader_word hd⟩

/-- The table of R88 lists each header with its header word, and nothing else. -/
theorem mem_legalHeaders_iff {h : Word} {hd : Header} : (h, hd) ∈ legalHeaders ↔ h = hd.word := by
  have hsound : ∀ p ∈ legalHeaders, p.1 = p.2.word := by decide
  refine ⟨hsound (h, hd), ?_⟩
  rintro rfl
  cases hd with
  | constructSeeded v | constructEntropy v => cases v <;> decide
  | nextInt w signed => cases w <;> cases signed <;> decide
  | nextFloat f => cases f <;> decide
  | nextRaw | nextDouble | fillBytes | generateBytes | readStatus | readMin | readMax => decide

/-! ## Operand words (R76) -/

/-- A header with its number of operand words is a well-formed command of that header and those words. -/
theorem Header.withOperands_fields {hd : Header} {ops : List Word} (hlen : ops.length = hd.operandCount) :
    (hd.withOperands ops).header = hd ∧ (hd.withOperands ops).operands = ops ∧
      (hd.withOperands ops).wellFormed = true := by
  cases hd with
  | constructSeeded v => exact ⟨rfl, rfl, beq_iff_eq.2 hlen⟩
  | constructEntropy | nextRaw | nextDouble | readStatus | readMin | readMax =>
    obtain rfl := List.length_eq_zero_iff.1 hlen
    exact ⟨rfl, rfl, rfl⟩
  | generateBytes =>
    obtain ⟨count, rfl⟩ := List.length_eq_one_iff.1 hlen
    exact ⟨rfl, rfl, rfl⟩
  | nextInt | nextFloat | fillBytes =>
    obtain ⟨x, y, rfl⟩ := List.length_eq_two.1 hlen
    exact ⟨rfl, rfl, rfl⟩

/-- A well-formed command is its header with its header's number of operand words. -/
theorem Instr.operands_of_wellFormed {i : Instr} (hi : i.wellFormed = true) :
    i.operands.length = i.header.operandCount ∧ i.header.withOperands i.operands = i := by
  revert hi
  cases i with
  | constructSeeded v seed => exact Laws.OperandWords.constructSeeded v seed
  | constructEntropy v => exact Laws.OperandWords.constructEntropy v
  | nextRaw => exact Laws.OperandWords.nextRaw
  | nextDouble => exact Laws.OperandWords.nextDouble
  | nextInt w signed lo hi => exact Laws.OperandWords.nextInt w signed lo hi
  | nextFloat f lo hi => exact Laws.OperandWords.nextFloat f lo hi
  | fillBytes base len => exact Laws.OperandWords.fillBytes base len
  | generateBytes count => exact Laws.OperandWords.generateBytes count
  | readStatus => exact Laws.OperandWords.readStatus
  | readMin => exact Laws.OperandWords.readMin
  | readMax => exact Laws.OperandWords.readMax

/-! ## Decoding -/

section

variable {h : Word} {hd : Header} {ws : List Word}

theorem decode_of_illegalHeader (hh : decodeHeader h = none) : decode (h :: ws) = .illegalHeader := by
  simp [decode, hh]

theorem decode_of_lt_operandCount (hh : decodeHeader h = some hd) (hlt : ws.length < hd.operandCount) :
    decode (h :: ws) = .incomplete := by simp [decode, hh, hlt]

theorem decode_of_operandCount_le (hh : decodeHeader h = some hd) (hle : hd.operandCount ≤ ws.length) :
    decode (h :: ws) = .command (hd.withOperands (ws.take hd.operandCount)) (ws.drop hd.operandCount) := by
  simp [decode, hh, hle]

/-- What decodes to a command is a header word, its operand words, and the rest (R82). -/
theorem decode_eq_command {i : Instr} {rest : List Word} (hdec : decode ws = .command i rest) :
    ∃ (hd : Header) (ops : List Word),
      ws = hd.word :: (ops ++ rest) ∧ ops.length = hd.operandCount ∧ i = hd.withOperands ops := by
  cases ws with
  | nil => cases hdec
  | cons w ws =>
    cases hh : decodeHeader w with
    | none => cases (decode_of_illegalHeader hh).symm.trans hdec
    | some hd =>
      rcases Nat.lt_or_ge ws.length hd.operandCount with hlt | hle
      · cases (decode_of_lt_operandCount hh hlt).symm.trans hdec
      · cases (decode_of_operandCount_le hh hle).symm.trans hdec
        refine ⟨hd, ws.take hd.operandCount, ?_, List.length_take_of_le hle, rfl⟩
        rw [List.take_append_drop, eq_word_of_decodeHeader hh]

end

/-! ## The obligations -/

/-- Settles O1: the header word decodes to the header, and the operand words behind it are as many as it takes. -/
theorem decodeReadsBackEveryEncodedCommand : Obligations.DecodeReadsBackEveryEncodedCommand := by
  intro i rest hi
  obtain ⟨hlen, hback⟩ := Instr.operands_of_wellFormed hi
  have hle : i.header.operandCount ≤ (i.operands ++ rest).length := by simp [hlen]
  rw [encode, List.cons_append, decode_of_operandCount_le (decodeHeader_word i.header) hle, ← hlen, List.take_left,
    List.drop_left, hback]

/-- Settles O2: the words are a header word and its operand words, which the command holds whole. -/
theorem everyDecodedCommandIsItsEncoding : Obligations.EveryDecodedCommandIsItsEncoding := by
  intro ws i rest h
  obtain ⟨hd, ops, rfl, hlen, rfl⟩ := decode_eq_command h
  obtain ⟨hheader, hoperands, hwf⟩ := Header.withOperands_fields hlen
  exact ⟨by rw [encode, hheader, hoperands, List.cons_append], hwf⟩

/-- Settles O3: both sides say that the word is the header's own. -/
theorem legalHeadersAreExactlyTheListedOnes : Obligations.LegalHeadersAreExactlyTheListedOnes :=
  fun _ _ => decodeHeader_eq_some_iff.trans mem_legalHeaders_iff.symm

/-- Settles O4: by evaluation of the decoder on the words. -/
theorem specCommandWordsDecode : Obligations.SpecCommandWordsDecode := by
  unfold Obligations.SpecCommandWordsDecode
  decide

end Sys2Proof
end

section
/-! PROOFS. What the block finds at its port: an illegal header, or a command still to come (R80, R83). -/

namespace Sys2Proof.Machine

section

variable {s : State} {h : Word}

/-- A step on an illegal header, with its one word consumed (R80). -/
theorem step_of_illegalHeader {tail : List HostEvent} (hh : decodeHeader h = none)
    (hin : s.inputs = .word h :: tail) : step s = execIllegalHeader (s.setInputs tail) := by
  have hfetch : fetch s.inputs = .illegal tail := by
    simp [hin, fetch, leadingWords, decode_of_illegalHeader hh]
  simp only [step, hfetch]

/-- The block waits on words that are no whole command and have no reset behind them (R83). -/
theorem step_of_incomplete {ws : List Word} (hdec : decode ws = .incomplete) (hin : s.inputs = ws.map .word) :
    step s = .next s := by
  have hleading : leadingWords (ws.map .word) = ws := by simpa [leadingWords] using leadingWords_words_append ws []
  have hafter : afterWords (ws.map .word) = [] := by simpa [afterWords] using afterWords_words_append ws []
  have hfetch : fetch s.inputs = .waiting := by simp [hin, fetch, hleading, hdec, hafter]
  simp only [step, hfetch]

end

/-- Settles O7: the words decode to an incomplete command. -/
theorem blockWaitsForMissingOperands : Obligations.BlockWaitsForMissingOperands :=
  fun _ _ _ _ hh hlt hin => step_of_incomplete (decode_of_lt_operandCount hh hlt) hin

/-- Settles O6: the step is the illegal header's, behind the first gate. -/
theorem illegalHeaderIsConsumedAlone : Obligations.IllegalHeaderIsConsumedAlone := by
  intro s h tail hh hin
  rw [step_of_illegalHeader hh hin]
  exact ⟨fun hclear => unlessFaulted_clear (s := s.setInputs tail) hclear,
    fun hfaulted => unlessFaulted_faulted (s := s.setInputs tail) hfaulted⟩

end Sys2Proof.Machine
end

section
/-! PROOFS. The response of a finished command (R84). -/

namespace Sys2Proof.Machine

/-- Everything a finished command can answer: the state it leaves, by its response. -/
inductive CommandAnswer (i : Instr) (s : State) : State → Prop where
  /-- The block was faulted (R223). -/
  | refused (hi : i ≠ .readStatus) (hf : s.status.fault.isSome = true) :
    CommandAnswer i s (respond .refused 0 [] s)
  /-- The command raised a fault (R222). -/
  | raised (c : Cause) (hf : s.status.fault = none) : CommandAnswer i s (raiseFault c s)
  /-- The command ran: the OK response comes after what the command did, which is no response and no fault. -/
  | ran (value : Word) (bytes : List Byte) (u : State) (hclear : i = .readStatus ∨ s.status.fault = none)
      (hbytes : bytes ≠ [] → ∃ n, i = .generateBytes n) (hresponses : u.responses = s.responses)
      (hfault : u.status.fault = s.status.fault) : CommandAnswer i s (respondOk value bytes u)

section

variable {i : Instr} {s t u : State} {body : State → Host.Outcome State Fault Refusal}

/-- An unfaulted block answers a command OK, with no bytes (R85). -/
theorem CommandAnswer.ran_noBytes (value : Word) (hf : s.status.fault = none) (hresponses : u.responses = s.responses)
    (hfault : u.status.fault = s.status.fault) : CommandAnswer i s (respondOk value [] u) :=
  .ran value [] u (.inr hf) (fun h => absurd rfl h) hresponses hfault

/-- The first gate adds the refusal to the answers of its body (R223). -/
theorem CommandAnswer.of_unlessFaulted (hi : i ≠ .readStatus) (h : unlessFaulted s body = .next t)
    (hbody : s.status.fault = none → body s = .next t → CommandAnswer i s t) : CommandAnswer i s t := by
  rcases unlessFaulted_cases h with ⟨hf, ht⟩ | ⟨hf, hb⟩
  · cases ht
    exact .refused hi hf
  · exact hbody hf hb

/-- The gates of a draw command add the refusal and NotConstructed to the answers of its body (R211). -/
theorem CommandAnswer.of_whenConstructed (hi : i ≠ .readStatus) (h : whenConstructed s body = .next t)
    (hbody : s.status.fault = none → body s = .next t → CommandAnswer i s t) : CommandAnswer i s t := by
  rcases whenConstructed_cases h with ⟨hf, ht⟩ | ⟨hf, -, ht⟩ | ⟨hf, -, hb⟩
  · cases ht
    exact .refused hi hf
  · cases ht
    exact .raised _ hf
  · exact hbody hf hb

/-- Every finished command has one of the answers (R84, R213). -/
theorem exec_answer (h : exec i s = .next t) : CommandAnswer i s t := by
  unfold exec at h
  cases i with
  | constructSeeded v seed =>
    refine .of_unlessFaulted (by simp) h fun hf hb => ?_
    split at hb
    · cases hb
      exact .ran_noBytes 0 hf rfl rfl
    · cases hb
  | constructEntropy v =>
    refine .of_unlessFaulted (by simp) h fun hf hb => ?_
    cases hb
    exact .ran_noBytes 0 hf (by simp) (by simp)
  | nextRaw | nextDouble =>
    refine .of_whenConstructed (by simp) h fun hf hb => ?_
    cases hb
    exact .ran_noBytes _ hf rfl rfl
  | nextInt w signed lo hi =>
    refine .of_whenConstructed (by simp) h fun hf hb => ?_
    dsimp only at hb
    split at hb
    · cases hb
      exact .raised _ hf
    · split at hb
      · cases hb
      · cases hb
        exact .ran_noBytes _ hf rfl rfl
  | nextFloat f lo hi =>
    refine .of_whenConstructed (by simp) h fun hf hb => ?_
    dsimp only at hb
    split at hb
    · cases hb
      exact .raised _ hf
    · split at hb
      · cases hb
        exact .ran_noBytes _ hf rfl rfl
      · split at hb
        · cases hb
        · cases hb
          exact .ran_noBytes _ hf rfl rfl
  | fillBytes base len =>
    refine .of_whenConstructed (by simp) h fun hf hb => ?_
    dsimp only at hb
    split at hb
    · cases hb
      exact .ran_noBytes _ hf rfl rfl
    · split at hb
      · cases hb
        exact .raised _ hf
      · split at hb
        · cases hb
          exact .ran_noBytes _ hf rfl rfl
        · cases hb
  | generateBytes count =>
    refine .of_whenConstructed (by simp) h fun hf hb => ?_
    cases hb
    exact .ran _ _ _ (.inr hf) (fun _ => ⟨count, rfl⟩) rfl rfl
  | readStatus =>
    cases h
    exact .ran _ _ _ (.inl rfl) (fun h => absurd rfl h) rfl rfl
  | readMin | readMax =>
    refine .of_unlessFaulted (by simp) h fun hf hb => ?_
    cases hb
    exact .ran_noBytes _ hf rfl rfl

end

/-- Settles O14: each answer is one response, its CODE told from the fault before and after. -/
theorem everyFinishedCommandSendsOneResponse : Obligations.EveryFinishedCommandSendsOneResponse := by
  intro s t i h
  cases exec_answer h with
  | refused hi hf =>
    exact ⟨_, respond_responses .refused 0 [] s, by simp, by simp, by simp, by simp [codeNumber, hi, hf]⟩
  | raised c hf =>
    exact ⟨_, raiseFault_responses c s, by simp, by simp, by simp, by simp [codeNumber, hf]⟩
  | ran value bytes u hclear hbytes hresponses hfault =>
    refine ⟨_, hresponses ▸ respondOk_responses value bytes u, by simpa using hbytes, by simp, by simp, ?_⟩
    rcases hclear with rfl | hf
    · cases hs : s.status.fault <;> simp [codeNumber, hfault, hs]
    · simp [codeNumber, hfault, hf]

end Sys2Proof.Machine
end

section
/-! PROOFS. The operands of NEXT_INT, and the full 64-bit range (R77, R87). -/

namespace Sys2Proof.Machine

/-! ## Operands -/

/-- An operand is the low W bits of its word (R77). -/
theorem intOperand_eq_toNat_setWidth (w : IntWidth) (x : Word) : intOperand w x = (x.setWidth (intBits w)).toNat :=
  (BitVec.toNat_setWidth ..).symm

/-- Two's complement, as Lean's bit vectors read it (R8). -/
theorem sval_toNat (w : IntWidth) (b : BitVec (intBits w)) : sval w b.toNat = b.toInt := by
  have hpow : 2 ^ intBits w = 2 * 2 ^ (intBits w - 1) := by cases w <;> rfl
  rw [sval, BitVec.toInt_eq_toNat_cond]
  split_ifs with hle hlt hlt
  · omega
  · push_cast; rfl
  · rfl
  · omega

/-- Words with the same low W bits are the same operand. -/
theorem intOperand_congr {w : IntWidth} {x y : Word} (h : ∀ k, k < intBits w → x.getLsbD k = y.getLsbD k) :
    intOperand w x = intOperand w y := by
  have hlow : x.setWidth (intBits w) = y.setWidth (intBits w) :=
    BitVec.eq_of_getLsbD_eq fun k hk => by simpa [BitVec.getLsbD_setWidth, hk] using h k hk
  rw [intOperand_eq_toNat_setWidth, intOperand_eq_toNat_setWidth, hlow]

/-- Settles O35: NEXT_INT reads its operand words by `intOperand` only, which is their low bits. -/
theorem nextIntIgnoresUpperOperandBits : Obligations.NextIntIgnoresUpperOperandBits := by
  refine ⟨rfl, fun w signed x => ?_, fun w signed lo hi lo' hi' s hlo hhi => ?_⟩
  · rw [intOperand_eq_toNat_setWidth, intValue, sval_toNat]
  · simp only [exec, execNextInt, intOperand_congr hlo, intOperand_congr hhi]

/-! ## The full 64-bit range -/

/-- A raw word is its own 64-bit result from the minimum 0 (R163). -/
theorem intResult_w64_unsigned (x : Word) : intResult .w64 false ((0 + x.toNat) % 2 ^ intBits .w64) = x := by
  have hlow : (0 + x.toNat) % 2 ^ intBits .w64 = x.toNat := by
    rw [Nat.zero_add]
    exact Nat.mod_eq_of_lt x.isLt
  rw [hlow]
  exact (BitVec.ofNat_toNat 64 x).trans (BitVec.setWidth_eq x)

/-- Settles O36: the range is not inverted and its span is the full one, for which the offset is the raw word. -/
theorem nextU64IsNextRaw : Obligations.NextU64IsNextRaw := by
  intro s
  have hlo : intOperand .w64 0 = 0 := rfl
  have hhi : intOperand .w64 0xFFFFFFFFFFFFFFFF = 2 ^ 64 - 1 := rfl
  have hrange : intRangeBad .w64 false 0 (2 ^ 64 - 1) = false := rfl
  have hspan : intSpan .w64 0 (2 ^ 64 - 1) = 2 ^ 64 - 1 := rfl
  simp only [expandPseudo, exec, execNextInt, execNextRaw, hlo, hhi, hrange, hspan, drawOffset, if_true,
    intResult_w64_unsigned]
  rfl

end Sys2Proof.Machine
end

section
/-! PROOFS. The draws of the entropy and timestamp ports, and the seed words made of them (R101-R104). -/

namespace Sys2Proof.Machine

/-! ## The seed word -/

/-- `timestamp32` is the timestamp modulo 2^32 (R103). -/
theorem toNat_and_lowHalf (t : Word) : (t &&& 0xFFFFFFFF).toNat = t.toNat % 2 ^ 32 :=
  Nat.and_two_pow_sub_one_eq_mod t.toNat 32

/-- A sample keeps all its bits in the upper half of a word (R103). -/
theorem toNat_zeroExtend_shiftLeft_half (e : BitVec 32) :
    ((e.zeroExtend 64) <<< 32).toNat = e.toNat <<< 32 := by
  have he : e.toNat < 2 ^ 32 := e.isLt
  rw [BitVec.toNat_shiftLeft, BitVec.toNat_setWidth]
  omega

/-- Settles O22: the two halves of the word share no bit, so their `|` is their sum. -/
theorem seedWordIsEntropyOverTimestamp : Obligations.SeedWordIsEntropyOverTimestamp := by
  intro e t
  have hlow : t.toNat % 2 ^ 32 < 2 ^ 32 := Nat.mod_lt _ (by decide)
  refine ⟨?_, toNat_and_lowHalf t⟩
  calc (seedWordOf { valid := true, sample := e } t).toNat
      = ((e.zeroExtend 64) <<< 32).toNat ||| (t &&& 0xFFFFFFFF).toNat := BitVec.toNat_or ..
    _ = e.toNat <<< 32 ||| t.toNat % 2 ^ 32 := by
      rw [toNat_zeroExtend_shiftLeft_half, toNat_and_lowHalf]
    _ = e.toNat * 2 ^ 32 + t.toNat % 2 ^ 32 := by
      rw [← Nat.shiftLeft_add_eq_or_of_lt hlow, Nat.shiftLeft_eq]

/-! ## Delivered draws -/

section

variable {s : State} {x : EntropySample} {xs : List EntropySample} {t : Word} {ts : List Word}

/-- A delivered sample is read, and the ones behind it stay (R101). -/
theorem readEntropy_delivered (h : s.entropyIn = x :: xs) : readEntropy s = (x, s.setEntropyIn xs) := by
  simp only [readEntropy, h]

/-- A delivered timestamp not below the last one is read as it is, and the ones behind it stay (R102). -/
theorem readTimestamp_delivered (h : s.timeIn = t :: ts) (hle : s.lastTime.toNat ≤ t.toNat) :
    readTimestamp s = (t, (s.setTimeIn ts).setLastTime t) := by
  simp only [readTimestamp, h, laterTime_of_le hle]

/-- A seed word of a delivered sample and a delivered timestamp takes these two draws and no other (R103). -/
theorem readSeedWord_delivered (hx : s.entropyIn = x :: xs) (ht : s.timeIn = t :: ts)
    (hle : s.lastTime.toNat ≤ t.toNat) :
    readSeedWord s =
      (seedWordOf x t, x.valid, { s with entropyIn := xs, timeIn := ts, lastTime := t }) := by
  have htime : readTimestamp (s.setEntropyIn xs) = (t, ((s.setEntropyIn xs).setTimeIn ts).setLastTime t) :=
    readTimestamp_delivered ht hle
  simp only [readSeedWord, readEntropy_delivered hx, htime]
  rfl

end

/-- Settles O21: by induction on the samples; each pass takes the first of each list and remembers its timestamp. -/
theorem gatherSeedReadsTheDrawsInOrder : Obligations.GatherSeedReadsTheDrawsInOrder := by
  intro s xs
  induction xs generalizing s with
  | nil =>
    rintro xs' ts ts' rfl hts hlen -
    obtain rfl := List.length_eq_zero_iff.1 hlen.symm
    obtain rfl : s.timeIn = ts' := hts
    rfl
  | cons x xs ih =>
    intro xs' ts ts' hxs hts hlen hsorted
    cases ts with
    | nil => cases hlen
    | cons t ts =>
      obtain ⟨hfirst, htail⟩ := List.pairwise_cons.1 hsorted
      have hword := readSeedWord_delivered (xs := xs ++ xs') (ts := ts ++ ts') hxs hts (hfirst t List.mem_cons_self)
      have hrest := ih { s with entropyIn := xs ++ xs', timeIn := ts ++ ts', lastTime := t } xs' ts ts' rfl rfl
        (Nat.succ.inj hlen) htail
      simp only [List.length_cons, gatherSeed, hword, hrest, List.zipWith_cons_cons, List.any_cons, List.getLastD_cons]

/-! ## The last timestamp -/

/-- A seed word's one read of the timestamp port does not go back (R102). -/
theorem lastTime_le_readSeedWord (s : State) : s.lastTime.toNat ≤ (readSeedWord s).2.2.lastTime.toNat := by
  simpa [readSeedWord] using lastTime_le_readTimestamp (readEntropy s).2

/-- The reads of a seed do not go back (R102, R104). -/
theorem lastTime_le_gatherSeed (k : Nat) (s : State) :
    s.lastTime.toNat ≤ (gatherSeed k s).2.2.lastTime.toNat := by
  induction k generalizing s with
  | zero => exact Nat.le_refl _
  | succ k ih => exact (lastTime_le_readSeedWord s).trans (ih _)

/-- No command puts the last timestamp back: only CONSTRUCT_ENTROPY moves it (R102). -/
theorem CommandEffect.lastTime_le {s t : State} (h : CommandEffect s t) : s.lastTime.toNat ≤ t.lastTime.toNat := by
  cases h with
  | constructsEntropy v => exact lastTime_le_gatherSeed v.seedCount s
  | responds | raises | constructsSeeded | draws | fills => exact Nat.le_refl _

/-- Settles O23: a read is clamped from below, and a step waits, resets or has a command's effect. -/
theorem timestampReadsNeverDecrease : Obligations.TimestampReadsNeverDecrease := by
  refine ⟨fun s => ⟨lastTime_le_readTimestamp s, readTimestamp_lastTime s⟩, fun s t h => ?_⟩
  rcases step_cases h with rfl | ⟨rest, -, rfl⟩ | ⟨evs, -, rfl⟩ | ⟨rest, heffect⟩
  · exact Nat.le_refl _
  · exact Nat.le_refl _
  · exact Nat.le_refl _
  · exact heffect.lastTime_le

end Sys2Proof.Machine
end

section
/-! PROOFS. The step functions of the variants, and the loading of a seed (R124-R134). -/

namespace Sys2Proof.Machine

/-! ## The step functions (R124, R126, R130) -/

/-- The rotation of R8 is Lean's, for the amounts R8 allows. -/
theorem rotl_eq_rotateLeft (a : Word) {k : Nat} (hk : k < 64) : rotl a k = a.rotateLeft k := by
  rw [BitVec.rotateLeft_eq_rotateLeftAux_of_lt hk]
  rfl

/-- A step of Variant A (R124). -/
theorem engineStep_a (cfg : Config) (s0 s1 : Word) :
    engineStep cfg (.a s0 s1) =
      (if cfg.aOutput = .post then s1 + mixA cfg s0 s1 else s0 + s1, .a s1 (mixA cfg s0 s1)) := by
  simp only [engineStep, stepA]
  cases cfg.aOutput <;> rfl

/-- A step of Variant B, each new word in terms of the old ones (R126). -/
theorem engineStep_b (cfg : Config) (s0 s1 s2 s3 : Word) :
    engineStep cfg (.b s0 s1 s2 s3) = (rotl (s1 * 5) 7 * 9,
      .b (s0 ^^^ s1 ^^^ s3) (s0 ^^^ s1 ^^^ s2) (s0 ^^^ s2 ^^^ (s1 <<< cfg.bShift)) (rotl (s1 ^^^ s3) cfg.bRot)) := by
  have h0 : s0 ^^^ (s3 ^^^ s1) = s0 ^^^ s1 ^^^ s3 := by ac_rfl
  have h1 : s1 ^^^ (s2 ^^^ s0) = s0 ^^^ s1 ^^^ s2 := by ac_rfl
  simp only [engineStep, stepB]
  rw [h0, h1, BitVec.xor_comm s2 s0, BitVec.xor_comm s3 s1]

/-- A step of Variant C tempers word 0 of the regenerated array, or the word MTI of the array as it is (R130). -/
theorem engineStep_c (cfg : Config) (ws : List Word) (mti : Nat) :
    engineStep cfg (.c ws mti) =
      (temper cfg (wordAt (if cfg.cN ≤ mti then regenC cfg ws else ws) (if cfg.cN ≤ mti then 0 else mti)),
        .c (if cfg.cN ≤ mti then regenC cfg ws else ws) ((if cfg.cN ≤ mti then 0 else mti) + 1)) := by
  simp only [engineStep, stepC]
  split <;> rfl

/-! ## InitC (R129) -/

/-- Each word of `InitC` comes from the word before it and its own index (R129). -/
theorem wordAt_initWords_succ (cfg : Config) {k m : Nat} (prev : Word) {i : Nat} (hi : i < k) :
    wordAt (prev :: initWords cfg k m prev) (i + 1) =
      cfg.cF * (wordAt (prev :: initWords cfg k m prev) i ^^^ (wordAt (prev :: initWords cfg k m prev) i >>> 62)) +
        BitVec.ofNat 64 (m + i) := by
  induction k generalizing m prev i with
  | zero => omega
  | succ k ih =>
    cases i with
    | zero => rfl
    | succ i =>
      have hword := ih (m := m + 1) (cfg.cF * (prev ^^^ (prev >>> 62)) + BitVec.ofNat 64 m) (Nat.lt_of_succ_lt_succ hi)
      rwa [Nat.add_right_comm m 1 i] at hword

/-- Settles O60: each variant by its step's equation, InitC by its recurrence, and the parameters as printed. -/
theorem engineStepsComputeTheirRules : Obligations.EngineStepsComputeTheirRules := by
  refine ⟨fun cfg s0 s1 => ?_, fun cfg s0 s1 s2 s3 _ hrot => ?_, fun cfg seed hN => ?_, engineStep_c, by decide⟩
  · have hmix : mixA cfg s0 s1 = s0 ^^^ (s0 <<< cfg.aShift1) ^^^ ((s0 ^^^ (s0 <<< cfg.aShift1)) >>> cfg.aShift2) ^^^
        s1 ^^^ (s1 >>> cfg.aShift3) := rfl
    rw [engineStep_a, hmix]
  · rw [engineStep_b, rotl_eq_rotateLeft _ (by decide), rotl_eq_rotateLeft _ hrot]
  · refine ⟨_, rfl, by simp; omega, rfl, fun i hi => ?_⟩
    rw [wordAt_initWords_succ cfg seed (by omega), Nat.add_comm 1 i]

/-! ## RegenC (R131) -/

/-- The array when `RegenC` has done the passes at the indexes below `n`. -/
def regenPasses (cfg : Config) (ws : List Word) (n : Nat) : List Word := (List.range n).foldl (twistAt cfg) ws

theorem regenPasses_cN (cfg : Config) (ws : List Word) : regenPasses cfg ws cfg.cN = regenC cfg ws := rfl

theorem regenPasses_succ (cfg : Config) (ws : List Word) (n : Nat) :
    regenPasses cfg ws (n + 1) = twistAt cfg (regenPasses cfg ws n) n := by
  simp [regenPasses, List.range_succ]

@[simp] theorem regenPasses_length (cfg : Config) (ws : List Word) (n : Nat) :
    (regenPasses cfg ws n).length = ws.length := foldl_twistAt_length ..

/-- A pass at `i` leaves every other word alone. -/
theorem wordAt_twistAt_ne (cfg : Config) (ws : List Word) {i j : Nat} (hne : j ≠ i) :
    wordAt (twistAt cfg ws i) j = wordAt ws j := by
  simp [wordAt, twistAt, List.getD_eq_getElem?_getD, Ne.symm hne]

/-- A pass at `i` writes word `i` from the words it finds (R131). -/
theorem wordAt_twistAt_self (cfg : Config) {ws : List Word} {i : Nat} (hi : i < ws.length) :
    let x := (wordAt ws i &&& cfg.cUM) ||| (wordAt ws ((i + 1) % cfg.cN) &&& cfg.cLM)
    wordAt (twistAt cfg ws i) i = wordAt ws ((i + cfg.cM) % cfg.cN) ^^^
      (if x.getLsbD 0 then (x >>> 1) ^^^ cfg.cA else x >>> 1) := by
  simp [wordAt, twistAt, List.getD_eq_getElem?_getD, hi]

/-- The passes below `n` leave the words from `n` up as they were. -/
theorem wordAt_regenPasses_of_le (cfg : Config) (ws : List Word) {n j : Nat} (hj : n ≤ j) :
    wordAt (regenPasses cfg ws n) j = wordAt ws j := by
  induction n with
  | zero => rfl
  | succ n ih => rw [regenPasses_succ, wordAt_twistAt_ne _ _ (by omega), ih (by omega)]

/-- No pass from `n` up changes a word below `n`. -/
theorem wordAt_regenPasses_of_lt (cfg : Config) (ws : List Word) {n m j : Nat} (hj : j < n) (hm : n ≤ m) :
    wordAt (regenPasses cfg ws m) j = wordAt (regenPasses cfg ws n) j := by
  induction m, hm using Nat.le_induction with
  | base => rfl
  | succ m hm ih => rw [regenPasses_succ, wordAt_twistAt_ne _ _ (by omega), ih]

/-- Settles O26: the pass at `i` finds the rewritten words below `i` and the old ones from `i` up. -/
theorem regenerationFollowsTheTwistRecurrence : Obligations.RegenerationFollowsTheTwistRecurrence := by
  intro cfg ws _ hlen
  refine ⟨(regenC_length cfg ws).trans hlen, fun i hi => ?_⟩
  have hseen : ∀ j, wordAt (regenPasses cfg ws i) j = if j < i then wordAt (regenC cfg ws) j else wordAt ws j := by
    intro j
    split
    · exact (wordAt_regenPasses_of_lt cfg ws ‹_› hi.le).symm
    · exact wordAt_regenPasses_of_le cfg ws (Nat.le_of_not_lt ‹_›)
  have hpass : wordAt (regenC cfg ws) i = wordAt (twistAt cfg (regenPasses cfg ws i) i) i := by
    rw [← regenPasses_cN, wordAt_regenPasses_of_lt cfg ws (Nat.lt_succ_self i) hi, regenPasses_succ]
  have hfirst : wordAt (regenPasses cfg ws i) i = wordAt ws i := wordAt_regenPasses_of_le cfg ws (Nat.le_refl i)
  simp only [hpass, wordAt_twistAt_self cfg (ws := regenPasses cfg ws i) (by simpa [hlen] using hi), hfirst, ← hseen]

/-! ## The loaded seed and the warm-up (R132, R133) -/

/-- Discarded steps are the iterates of one step. -/
theorem discardSteps_eq_iterate (cfg : Config) (n : Nat) (e : Engine) :
    discardSteps cfg n e = (fun e => (engineStep cfg e).2)^[n] e := by
  induction n generalizing e with
  | zero => rfl
  | succ n ih => exact ih _

/-- Settles O24: `constructEngine` discards `warmupSteps` steps, which are 256. -/
theorem constructionRunsExactly256Steps : Obligations.ConstructionRunsExactly256Steps := by
  refine ⟨fun cfg v seed => ⟨?_, constructEngine_variant cfg v seed⟩, fun _ _ _ _ _ => ⟨rfl, rfl, rfl⟩⟩
  rw [constructEngine, discardSteps_eq_iterate, warmupSteps_eq]

end Sys2Proof.Machine
end

section
/-! PROOFS. The engine commands: the CONSTRUCTs, the all-zero seed, and NEXT_RAW (R134-R137). -/

namespace Sys2Proof.Machine

/-! ## The CONSTRUCT commands -/

/-- A CONSTRUCT_SEEDED with K(VAR) seed words, in an unfaulted block (R135). -/
theorem execConstructSeeded_clear {v : Variant} {seed : List Word} {s : State} (hf : s.status.fault = none)
    (hlen : seed.length = v.seedCount) :
    execConstructSeeded v seed s = .next (respondOk 0 [] (installEngine (constructEngine s.cfg v seed) false s)) := by
  rw [execConstructSeeded, unlessFaulted_clear hf, if_pos hlen]

/-- A CONSTRUCT_ENTROPY in an unfaulted block: seed gathering leaves the parameters (R136). -/
theorem execConstructEntropy_clear {v : Variant} {s : State} (hf : s.status.fault = none) :
    execConstructEntropy v s = .next (respondOk 0 [] (installEngine
      (constructEngine s.cfg v (gatherSeed v.seedCount s).1) (gatherSeed v.seedCount s).2.1
      (gatherSeed v.seedCount s).2.2)) := by
  rw [execConstructEntropy, unlessFaulted_clear hf]
  simp only [gatherSeed_cfg]

/-- STATUS of a constructed block without a flag is 1 + 2 · VARIANT (R24). -/
theorem statusWord_constructed {s : State} (h : s.status = { constructed := true, degraded := false, fault := none }) :
    statusWord s = 1 + 2 * variantCode (engineVariant s.engine) := by
  simp only [statusWord, statusVariant, statusCause, h]
  cases engineVariant s.engine <;> rfl

/-- Settles O19: the STATUS written is the one without a flag, and a wrong number of seed words fails the check. -/
theorem constructSeededBuildsTheEngine : Obligations.ConstructSeededBuildsTheEngine := by
  refine fun v seed s hf => ⟨fun hlen => ⟨_, execConstructSeeded_clear hf hlen, ?_, ?_⟩, fun hlen => ?_⟩
  · rw [← hf]
    rfl
  · rw [statusWord_constructed (by simp [hf]), respondOk_engine, installEngine_engine, constructEngine_variant]
    cases v <;> rfl
  · rw [exec, execConstructSeeded, unlessFaulted_clear hf, if_neg hlen]

/-- Settles O20: seed gathering leaves STATUS and the responses to the CONSTRUCT. -/
theorem constructEntropyBuildsFromGatheredSeed : Obligations.ConstructEntropyBuildsFromGatheredSeed := by
  intro v s hf
  have hgathered : (gatherSeed v.seedCount s).2.2.status.fault = none := by rw [gatherSeed_status, hf]
  rw [exec, execConstructEntropy_clear hf, ← hgathered, ← gatherSeed_responses v.seedCount s]
  rfl

/-- Settles O56: refused, or the engine installed; seed gathering reads the input ports alone. -/
theorem constructCommandsFrame : Obligations.ConstructCommandsFrame := by
  refine fun v seed s t => ⟨fun h => ?_, fun h => ?_⟩
  · rw [exec, execConstructSeeded] at h
    rcases unlessFaulted_cases h with ⟨-, ht⟩ | ⟨-, hb⟩
    · cases ht
      simp
    · split at hb
      · cases hb
        simp
      · cases hb
  · rw [exec, execConstructEntropy] at h
    rcases unlessFaulted_cases h with ⟨-, ht⟩ | ⟨-, hb⟩
    · cases ht
      simp
    · cases hb
      simp

/-! ## The all-zero seed (R134) -/

section

variable {cfg : Config} {e : Engine}

/-- An engine that a step leaves as it is stays so. -/
theorem discardSteps_of_fixed (h : (engineStep cfg e).2 = e) (n : Nat) : discardSteps cfg n e = e := by
  rw [discardSteps_eq_iterate]
  exact Function.iterate_fixed h n

/-- A loaded seed that steps leave as it is and answer with 0: the constructed engine is that, and so are its words. -/
theorem constructEngine_of_fixed {v : Variant} {seed : List Word}
    (h : engineStep cfg (loadSeed cfg v seed) = (0, loadSeed cfg v seed)) (n : Nat) :
    constructEngine cfg v seed = loadSeed cfg v seed ∧ rawWord cfg (constructEngine cfg v seed) n = 0 := by
  have hfixed : ∀ n, discardSteps cfg n (loadSeed cfg v seed) = loadSeed cfg v seed :=
    discardSteps_of_fixed (by rw [h])
  rw [rawWord, constructEngine, hfixed, hfixed, h]
  exact ⟨rfl, rfl⟩

end

/-- The all-zero state of Variant A is a fixed point with the raw word 0. -/
theorem engineStep_a_zero (cfg : Config) : engineStep cfg (.a 0 0) = (0, .a 0 0) := by
  simp [engineStep_a, mixA]

/-- The all-zero state of Variant B is a fixed point with the raw word 0. -/
theorem engineStep_b_zero (cfg : Config) : engineStep cfg (.b 0 0 0 0) = (0, .b 0 0 0 0) := by
  simp [engineStep_b, rotl]

/-- Settles O25: A and B load a fixed point, and the word 1 of `InitC(0)` is 1. -/
theorem allZeroSeedIsAccepted : Obligations.AllZeroSeedIsAccepted := by
  refine ⟨fun v s hf => ?_, fun cfg n => ?_, fun cfg hN => ⟨_, rfl, 1, ?_, by decide⟩⟩
  · exact ⟨_, execConstructSeeded_clear hf List.length_replicate, hf⟩
  · obtain ⟨hengineA, hwordA⟩ := constructEngine_of_fixed (v := .a) (seed := [0, 0]) (engineStep_a_zero cfg) n
    obtain ⟨hengineB, hwordB⟩ := constructEngine_of_fixed (v := .b) (seed := [0, 0, 0, 0]) (engineStep_b_zero cfg) n
    exact ⟨hengineA, hwordA, hengineB, hwordB⟩
  · obtain ⟨k, hk⟩ := Nat.exists_eq_add_of_le' hN
    simp [hk, initWords]

/-! ## NEXT_RAW (R137) -/

/-- Settles O28: past the gates, the command is one step of the engine. -/
theorem nextRawAnswersOneRawWord : Obligations.NextRawAnswersOneRawWord := by
  intro s ⟨hf, hc⟩
  rw [exec, execNextRaw, whenConstructed_ready hf hc]
  rfl

end Sys2Proof.Machine
end

section
/-! PROOFS. Every way a command but CONSTRUCT_ENTROPY can end, told of two states at once: it sees the parameters, the
engine and STATUS, and nothing else of the state (R120, R140, R211). -/

namespace Sys2Proof.Machine

/-- Two states with the same parameters, engine and STATUS. -/
structure SameBlock (s1 s2 : State) : Prop where
  cfg : s1.cfg = s2.cfg
  engine : s1.engine = s2.engine
  status : s1.status = s2.status

/-- The outcomes of the command `i` from `s1` and from `s2` when it does the same in both. -/
inductive SameOutcome (i : Instr) (s1 s2 : State) :
    Host.Outcome State Fault Refusal → Host.Outcome State Fault Refusal → Prop where
  /-- A response alone: a refusal, a read, or a fill of no bytes. -/
  | responds (code : RespCode) (value : Word) (bytes : List Byte) :
    SameOutcome i s1 s2 (.next (respond code value bytes s1)) (.next (respond code value bytes s2))
  /-- A fault, in a block that had none (R222). -/
  | raises (c : Cause) (hf : s2.status.fault = none) :
    SameOutcome i s1 s2 (.next (raiseFault c s1)) (.next (raiseFault c s2))
  /-- A draw of `n` engine steps, answered in the response (R211). -/
  | draws (n : Nat) (value : Word) (bytes : List Byte) :
    SameOutcome i s1 s2
      (.next (respondOk value bytes (s1.setEngine (discardSteps s2.cfg n s2.engine))))
      (.next (respondOk value bytes (s2.setEngine (discardSteps s2.cfg n s2.engine))))
  /-- FILL_BYTES: a draw of `n` engine steps, its bytes written (R190). -/
  | fills (base len : Word) (hi : i = .fillBytes base len) (n : Nat) (bytes : List Byte) :
    SameOutcome i s1 s2
      (.next (respondOk 0 []
        ((s1.setEngine (discardSteps s2.cfg n s2.engine)).setMem (writeBytes s1.mem base.toNat bytes))))
      (.next (respondOk 0 []
        ((s2.setEngine (discardSteps s2.cfg n s2.engine)).setMem (writeBytes s2.mem base.toNat bytes))))
  /-- CONSTRUCT_SEEDED (R135). -/
  | constructs (hi : isDraw i = false) (e : Engine) :
    SameOutcome i s1 s2 (.next (respondOk 0 [] (installEngine e false s1)))
      (.next (respondOk 0 [] (installEngine e false s2)))
  /-- A command that is stuck (R226, U16). -/
  | stuck (f : Fault) : SameOutcome i s1 s2 (.fault f) (.fault f)
  /-- A term that is no command (R76). -/
  | refused (r : Refusal) : SameOutcome i s1 s2 (.refused r) (.refused r)

section

variable {i : Instr} {s1 s2 : State} {body : State → Host.Outcome State Fault Refusal} (h : SameBlock s1 s2)
include h

/-! ## The gates of R213 -/

/-- The first gate looks at STATUS alone. -/
theorem SameOutcome.of_unlessFaulted
    (hbody : s2.status.fault = none → SameOutcome i s1 s2 (body s1) (body s2)) :
    SameOutcome i s1 s2 (unlessFaulted s1 body) (unlessFaulted s2 body) := by
  simp only [unlessFaulted, h.status]
  split
  · exact .responds ..
  · exact hbody (Option.not_isSome_iff_eq_none.1 ‹_›)

/-- The gates of a draw command look at STATUS alone. -/
theorem SameOutcome.of_whenConstructed
    (hbody : s2.status.fault = none → SameOutcome i s1 s2 (body s1) (body s2)) :
    SameOutcome i s1 s2 (whenConstructed s1 body) (whenConstructed s2 body) := by
  refine .of_unlessFaulted h fun hf => ?_
  simp only [h.status]
  split
  · exact hbody hf
  · exact .raises _ hf

/-! ## The commands -/

/-- CONSTRUCT_SEEDED builds an engine, or its term is no command (R135). -/
theorem execConstructSeeded_same (v : Variant) (seed : List Word) :
    SameOutcome (.constructSeeded v seed) s1 s2 (execConstructSeeded v seed s1) (execConstructSeeded v seed s2) := by
  refine .of_unlessFaulted h fun _ => ?_
  simp only [h.cfg]
  split
  · exact .constructs rfl _
  · exact .refused _

/-- NEXT_INT raises InvalidRange, draws an offset, or is stuck (R163). -/
theorem execNextInt_same (w : IntWidth) (signed : Bool) (lo hi : Word) :
    SameOutcome i s1 s2 (execNextInt w signed lo hi s1) (execNextInt w signed lo hi s2) := by
  refine .of_whenConstructed h fun hf => ?_
  simp only [h.cfg, h.engine]
  split
  · exact .raises _ hf
  · cases hdraw : drawOffset s2.cfg (intSpan w (intOperand w lo) (intOperand w hi)) s2.engine with
    | none => exact .stuck _
    | some drawn =>
      obtain ⟨n, he⟩ := drawOffset_engine hdraw
      simp only [he]
      exact .draws n ..

/-- NEXT_FLOAT raises InvalidRange, draws, once in the degenerate range, or is stuck (R169, R171). -/
theorem execNextFloat_same (f : FloatWidth) (lo hi : Word) :
    SameOutcome i s1 s2 (execNextFloat f lo hi s1) (execNextFloat f lo hi s2) := by
  refine .of_whenConstructed h fun hf => ?_
  simp only [h.cfg, h.engine, stepEngine_state]
  split
  · exact .raises _ hf
  · split
    · exact .draws 1 ..
    · generalize hloop : floatLoop s2.cfg f _ _ _ _ s2.engine = drawn
      cases drawn with
      | none => exact .stuck _
      | some drawn =>
        obtain ⟨n, -, -, -, -, he⟩ := floatLoop_some hloop
        simp only [he]
        exact .draws (n + 1) ..

/-- FILL_BYTES answers a fill of no bytes, raises BufferBounds, draws and writes, or is stuck (R190). -/
theorem execFillBytes_same (base len : Word) :
    SameOutcome (.fillBytes base len) s1 s2 (execFillBytes base len s1) (execFillBytes base len s2) := by
  refine .of_whenConstructed h fun hf => ?_
  simp only [h.cfg, h.engine, fill_engine]
  split
  · exact .responds ..
  · split
    · exact .raises _ hf
    · split
      · exact .fills base len rfl ..
      · exact .stuck _

/-- STATUS reads the same in both (R24). -/
theorem SameBlock.statusWord_eq : statusWord s1 = statusWord s2 := by
  simp only [statusWord, statusVariant, statusCause, h.engine, h.status]

/-- Every command but CONSTRUCT_ENTROPY does the same in both. -/
theorem exec_same (hi : ∀ v, i ≠ .constructEntropy v) : SameOutcome i s1 s2 (exec i s1) (exec i s2) := by
  unfold exec
  cases i with
  | constructSeeded v seed => exact execConstructSeeded_same h v seed
  | constructEntropy v => exact absurd rfl (hi v)
  | nextRaw =>
    unfold execNextRaw
    refine .of_whenConstructed h fun _ => ?_
    simp only [stepEngine, h.cfg, h.engine]
    exact .draws 1 ..
  | nextDouble =>
    unfold execNextDouble
    refine .of_whenConstructed h fun _ => ?_
    simp only [stepEngine, h.cfg, h.engine]
    exact .draws 1 ..
  | nextInt => exact execNextInt_same h ..
  | nextFloat => exact execNextFloat_same h ..
  | fillBytes base len => exact execFillBytes_same h base len
  | generateBytes count =>
    unfold execGenerateBytes
    refine .of_whenConstructed h fun _ => ?_
    simp only [h.cfg, h.engine, fill_engine]
    exact .draws ..
  | readStatus =>
    simp only [execReadStatus, h.statusWord_eq]
    exact .responds ..
  | readMin =>
    unfold execReadMin
    exact .of_unlessFaulted h fun _ => .responds ..
  | readMax =>
    unfold execReadMax
    exact .of_unlessFaulted h fun _ => .responds ..

end

/-- Settles O27: each way to end writes the same engine, STATUS, response and bytes in both states. -/
theorem commandsDependOnEngineAndStatusOnly : Obligations.CommandsDependOnEngineAndStatusOnly := by
  intro i s1 s2 hi hcfg hengine hstatus
  have hsame := exec_same ⟨hcfg, hengine, hstatus⟩ hi
  generalize exec i s1 = o1, exec i s2 = o2 at hsame
  cases hsame with
  | responds => exact ⟨hcfg, hengine, hstatus, ⟨_, rfl, rfl⟩, 0, [], rfl, rfl⟩
  | raises => exact ⟨hcfg, hengine, by simp [hstatus], ⟨_, rfl, rfl⟩, 0, [], rfl, rfl⟩
  | draws => exact ⟨hcfg, rfl, hstatus, ⟨_, rfl, rfl⟩, 0, [], rfl, rfl⟩
  | fills => exact ⟨hcfg, rfl, hstatus, ⟨_, rfl, rfl⟩, _, _, rfl, rfl⟩
  | constructs => exact ⟨hcfg, rfl, by simp [hstatus], ⟨_, rfl, rfl⟩, 0, [], rfl, rfl⟩
  | stuck | refused => rfl

/-- Settles O54: the same walk, from `s` and `s` itself; engine steps keep the variant. -/
theorem drawCommandsFrame : Obligations.DrawCommandsFrame := by
  intro i s t hi hfill h
  have hsame := exec_same (i := i) (s1 := s) ⟨rfl, rfl, rfl⟩ (by rintro v rfl; cases hi)
  rw [h] at hsame
  cases hsame with
  | responds => simp
  | raises c hf => simp [hf]
  | draws => simp
  | fills base len hfillBytes => exact absurd hfillBytes (hfill base len)
  | constructs hconstruct => cases hi.symm.trans hconstruct

end Sys2Proof.Machine
end

section
/-! PROOFS. An engine comes back to a state it was in within `engineStateBound` steps (R120, log entry 13). -/

namespace Sys2Proof.Machine

/-- Every state that steps from `e` can reach: as many words as `e` has, and for Variant C an MTI that is the one of
`e` or at most C_N, or 1. -/
def engineSpace (cfg : Config) : Engine → Finset Engine
  | .a _ _ => Finset.univ.image fun p : Word × Word => .a p.1 p.2
  | .b _ _ _ _ => Finset.univ.image fun p : (Word × Word) × Word × Word => .b p.1.1 p.1.2 p.2.1 p.2.2
  | .c ws mti =>
    Finset.univ.image fun p : (Fin ws.length → Word) × Fin (mti + cfg.cN + 2) => .c (List.ofFn p.1) p.2

section

variable (cfg : Config)

theorem card_engineSpace_le (e : Engine) : (engineSpace cfg e).card ≤ engineStateBound cfg e := by
  have hword : Fintype.card Word = 2 ^ 64 := FinEnum.card_eq_fintypeCard.symm
  cases e with
  | a | b | c =>
    refine Finset.card_image_le.trans (le_of_eq ?_)
    simp only [Finset.card_univ, Fintype.card_prod, Fintype.card_pi_const, Fintype.card_fin, hword, engineStateBound,
      Nat.pow_mul, Nat.reducePow, Nat.reduceMul]

theorem mem_engineSpace_a {s0 s1 : Word} {e : Engine} :
    e ∈ engineSpace cfg (.a s0 s1) ↔ ∃ x0 x1, e = .a x0 x1 := by
  simp [engineSpace, eq_comm]

theorem mem_engineSpace_b {s0 s1 s2 s3 : Word} {e : Engine} :
    e ∈ engineSpace cfg (.b s0 s1 s2 s3) ↔ ∃ x0 x1 x2 x3, e = .b x0 x1 x2 x3 := by
  simp [engineSpace, eq_comm]

theorem mem_engineSpace_c {ws : List Word} {mti : Nat} {e : Engine} :
    e ∈ engineSpace cfg (.c ws mti) ↔ ∃ xs n, e = .c xs n ∧ xs.length = ws.length ∧ n < mti + cfg.cN + 2 := by
  simp only [engineSpace, Finset.mem_image, Finset.mem_univ, true_and]
  constructor
  · rintro ⟨⟨g, n⟩, rfl⟩
    exact ⟨_, _, rfl, List.length_ofFn, n.isLt⟩
  · rintro ⟨xs, n, rfl, hlen, hn⟩
    exact ⟨(fun i => xs[i], ⟨n, hn⟩), by simp [← hlen]⟩

theorem self_mem_engineSpace (e : Engine) : e ∈ engineSpace cfg e := by
  cases e with
  | a s0 s1 =>
    rw [mem_engineSpace_a]
    exact ⟨s0, s1, rfl⟩
  | b s0 s1 s2 s3 =>
    rw [mem_engineSpace_b]
    exact ⟨s0, s1, s2, s3, rfl⟩
  | c ws mti =>
    rw [mem_engineSpace_c]
    exact ⟨ws, mti, rfl, rfl, by omega⟩

/-- A step stays in the space. -/
theorem engineStep_mem_engineSpace {e e' : Engine} (h : e' ∈ engineSpace cfg e) :
    (engineStep cfg e').2 ∈ engineSpace cfg e := by
  cases e with
  | a s0 s1 =>
    rw [mem_engineSpace_a] at h ⊢
    obtain ⟨x0, x1, rfl⟩ := h
    exact ⟨_, _, rfl⟩
  | b s0 s1 s2 s3 =>
    rw [mem_engineSpace_b] at h ⊢
    obtain ⟨x0, x1, x2, x3, rfl⟩ := h
    exact ⟨_, _, _, _, rfl⟩
  | c ws mti =>
    obtain ⟨xs, n, rfl, hlen, hn⟩ := (mem_engineSpace_c cfg).1 h
    rw [engineStep_c]
    refine (mem_engineSpace_c cfg).2 ⟨_, _, rfl, ?_, ?_⟩
    · split <;> simp [hlen]
    · split <;> omega

theorem discardSteps_mem_engineSpace (k : Nat) (e : Engine) : discardSteps cfg k e ∈ engineSpace cfg e := by
  induction k with
  | zero => exact self_mem_engineSpace cfg e
  | succ k ih =>
    rw [discardSteps_succ]
    exact engineStep_mem_engineSpace cfg ih

/-- More states than the space holds: one of them comes twice. -/
theorem exists_discardSteps_eq (e : Engine) :
    ∃ i j, i < j ∧ j ≤ engineStateBound cfg e ∧ discardSteps cfg i e = discardSteps cfg j e := by
  have hcard : (engineSpace cfg e).card < (Finset.range (engineStateBound cfg e + 1)).card := by
    rw [Finset.card_range]
    exact Nat.lt_succ_of_le (card_engineSpace_le cfg e)
  obtain ⟨i, hi, j, hj, hne, heq⟩ := Finset.exists_ne_map_eq_of_card_lt_of_maps_to hcard
    fun k _ => discardSteps_mem_engineSpace cfg k e
  rw [Finset.mem_range] at hi hj
  rcases Nat.lt_or_gt_of_ne hne with hlt | hlt
  · exact ⟨i, j, hlt, by omega, heq⟩
  · exact ⟨j, i, hlt, by omega, heq.symm⟩

/-- Every raw word there will ever be is one of the first `engineStateBound` ones. -/
theorem exists_rawWord_eq (e : Engine) (k : Nat) :
    ∃ m, m < engineStateBound cfg e ∧ rawWord cfg e k = rawWord cfg e m := by
  obtain ⟨i, j, hij, hj, heq⟩ := exists_discardSteps_eq cfg e
  induction k using Nat.strong_induction_on with
  | _ k ih =>
    by_cases hk : k < j
    · exact ⟨k, by omega, rfl⟩
    · obtain ⟨d, rfl⟩ := Nat.exists_eq_add_of_le' (Nat.le_of_not_lt hk)
      obtain ⟨m, hm, hword⟩ := ih (d + i) (by omega)
      refine ⟨m, hm, Eq.trans ?_ hword⟩
      rw [discardSteps_eq_iterate, discardSteps_eq_iterate] at heq
      rw [rawWord, rawWord, discardSteps_eq_iterate, discardSteps_eq_iterate, Function.iterate_add_apply,
        Function.iterate_add_apply, heq]

end

/-- What holds of the first `engineStateBound` raw words holds of all of them. -/
theorem forall_rawWord_of_lt_bound {cfg : Config} {e : Engine} {P : Word → Prop}
    (h : ∀ k, k < engineStateBound cfg e → P (rawWord cfg e k)) (k : Nat) : P (rawWord cfg e k) := by
  obtain ⟨m, hm, heq⟩ := exists_rawWord_eq cfg e k
  exact heq ▸ h m hm

end Sys2Proof.Machine
end

section
/-! PROOFS. `UniformBelow(s)`: the first accepted word, and how many words give each result (R162, R165, R166). -/

namespace Sys2Proof.Machine

section

variable {cfg : Config} {e e' : Engine} {s j : Nat}

/-- A word whose low product half is not below `s` is accepted: the shortcut of R162 takes no word the loop
would not. -/
theorem accepted_of_le_lo64 (hs : 1 ≤ s) {x : Word} (h : s ≤ lo64 (mulfull x s)) : accepted s x :=
  (Nat.mod_lt _ hs).le.trans h

/-- When `UniformBelow` answers, it answers the first accepted word (R162). -/
theorem uniformBelow_some (hs : 1 ≤ s) (h : uniformBelow cfg s e = some (j, e')) :
    ∃ n, (∀ k, k < n → ¬ accepted s (rawWord cfg e k)) ∧ accepted s (rawWord cfg e n) ∧
      j = hi64 (mulfull (rawWord cfg e n) s) ∧ e' = discardSteps cfg (n + 1) e := by
  simp only [uniformBelow] at h
  split at h
  · obtain ⟨n, -, hfirst⟩ := rejectLoop_some h
    exact ⟨n, hfirst⟩
  · rename_i hge
    cases h
    exact ⟨0, by simp, accepted_of_le_lo64 hs (Nat.le_of_not_lt hge), rfl, rfl⟩

/-- When `UniformBelow` has no result, no word is ever accepted: the loop was cut after every state of the engine
(R165). -/
theorem uniformBelow_none (h : uniformBelow cfg s e = none) (k : Nat) : ¬ accepted s (rawWord cfg e k) := by
  simp only [uniformBelow] at h
  split at h
  · have hrej := rejectLoop_none h
    cases k with
    | zero => exact hrej 0 (Nat.zero_le _)
    | succ k =>
      exact forall_rawWord_of_lt_bound (P := fun x => ¬ accepted s x) (fun m hm => hrej (m + 1) hm) k
  · cases h

/-- `UniformBelow` answers the first accepted word, if there is one (R162). -/
theorem uniformBelow_eq_some_iff (hs : 1 ≤ s) :
    uniformBelow cfg s e = some (j, e') ↔
      ∃ n, (∀ k, k < n → ¬ accepted s (rawWord cfg e k)) ∧ accepted s (rawWord cfg e n) ∧
        j = hi64 (mulfull (rawWord cfg e n) s) ∧ e' = discardSteps cfg (n + 1) e := by
  refine ⟨uniformBelow_some hs, fun ⟨n, hrej, hacc, hj, he⟩ => ?_⟩
  cases hrun : uniformBelow cfg s e with
  | none => exact absurd hacc (uniformBelow_none hrun n)
  | some drawn =>
    obtain ⟨n', hrej', hacc', hj', he'⟩ := uniformBelow_some hs hrun
    obtain rfl : n' = n := Nat.le_antisymm (Nat.le_of_not_lt fun hlt => hrej' n hlt hacc)
      (Nat.le_of_not_lt fun hlt => hrej n' hlt hacc')
    rw [hj, he, ← hj', ← he']

/-- `UniformBelow` has no result when no word is ever accepted (R165). -/
theorem uniformBelow_eq_none (hs : 1 ≤ s) (h : ∀ k, ¬ accepted s (rawWord cfg e k)) :
    uniformBelow cfg s e = none := by
  cases hrun : uniformBelow cfg s e with
  | none => rfl
  | some drawn =>
    obtain ⟨n, -, hacc, -⟩ := uniformBelow_some hs hrun
    exact absurd hacc (h n)

/-- A result of `UniformBelow(s)` is below `s` (R164). -/
theorem hi64_mulfull_lt (hs : 1 ≤ s) (x : Word) : hi64 (mulfull x s) < s :=
  Nat.div_lt_of_lt_mul (Nat.mul_lt_mul_of_pos_right x.isLt hs)

end

/-- Settles O29: the loop answers the first accepted word, and has no result only when no word is accepted. -/
theorem uniformBelowIsTheUnboundedLoop : Obligations.UniformBelowIsTheUnboundedLoop :=
  fun _ _ _ hs _ _ _ => uniformBelow_eq_some_iff hs

/-- Settles O33: the threshold of a power of two is 0, so the first word is accepted. -/
theorem powerOfTwoRangesTakeOneStep : Obligations.PowerOfTwoRangesTakeOneStep := by
  intro cfg e k hk
  have hsplit : 2 ^ 64 = 2 ^ (64 - k) * 2 ^ k := by rw [← Nat.pow_add, Nat.sub_add_cancel hk.le]
  have hthreshold : rejectThreshold (2 ^ k) = 0 := by
    rw [rejectThreshold, hsplit, ← Nat.sub_one_mul, Nat.mul_mod_left]
  have htop : hi64 (mulfull (rawWord cfg e 0) (2 ^ k)) = (rawWord cfg e 0).toNat / 2 ^ (64 - k) := by
    rw [hi64, mulfull, hsplit, Nat.mul_div_mul_right _ _ (Nat.two_pow_pos k)]
  rw [uniformBelow_eq_some_iff Nat.one_le_two_pow]
  exact ⟨0, by simp, by simp [accepted, hthreshold], htop.symm, rfl⟩

/-- The threshold leaves of the 2^64 low halves the greatest multiple of `s` (R162). -/
theorem two_pow_eq_rejectThreshold_add {s : Nat} (hs : s < 2 ^ 64) :
    2 ^ 64 = rejectThreshold s + s * (2 ^ 64 / s) := by
  rw [rejectThreshold, ← Nat.mod_eq_sub_mod hs.le, Nat.mod_add_div]

/-- An interval of `s * q` numbers, wherever it begins, holds `q` multiples of `s`. -/
theorem card_Ico_ceilDiv {s : Nat} (hs : 0 < s) (a q : Nat) :
    (Finset.Ico (a ⌈/⌉ s) ((a + s * q) ⌈/⌉ s)).card = q := by
  have hshift : a + s * q + s - 1 = a + s - 1 + s * q := by omega
  rw [Nat.card_Ico, Nat.ceilDiv_eq_add_pred_div, Nat.ceilDiv_eq_add_pred_div, hshift,
    Nat.add_mul_div_left _ _ hs, Nat.add_sub_cancel_left]

/-- A word is accepted with the result `j` when its product lies in the part of the `j`-th stretch of 2^64 numbers
from the threshold on (R162). -/
theorem le_lo64_and_hi64_eq_iff {t p j : Nat} (ht : t < 2 ^ 64) :
    t ≤ lo64 p ∧ hi64 p = j ↔ 2 ^ 64 * j + t ≤ p ∧ p < 2 ^ 64 * j + 2 ^ 64 := by
  unfold lo64 hi64
  omega

/-- Settles O32: the products of the accepted words of a result are the multiples of `s` in an interval of
`s * (2^64 / s)` numbers. -/
theorem everyResultComesFromEquallyManyWords : Obligations.EveryResultComesFromEquallyManyWords := by
  intro s j hs hlt hj
  have hwidth := two_pow_eq_rejectThreshold_add hlt
  have ht : rejectThreshold s < 2 ^ 64 := (Nat.mod_lt _ hs).trans hlt
  have hwords : ((Finset.range (2 ^ 64)).filter fun x => rejectThreshold s ≤ lo64 (x * s) ∧ hi64 (x * s) = j) =
      Finset.Ico ((2 ^ 64 * j + rejectThreshold s) ⌈/⌉ s)
        ((2 ^ 64 * j + rejectThreshold s + s * (2 ^ 64 / s)) ⌈/⌉ s) := by
    ext x
    rw [Finset.mem_filter, Finset.mem_range, Finset.mem_Ico, le_lo64_and_hi64_eq_iff ht,
      ceilDiv_le_iff_le_mul hs, lt_iff_lt_of_le_iff_le (ceilDiv_le_iff_le_mul hs), Nat.add_assoc, ← hwidth,
      Nat.mul_comm x s, and_iff_right_iff_imp]
    rintro ⟨-, hbelow⟩
    have hstretch : 2 ^ 64 * j + 2 ^ 64 ≤ s * 2 ^ 64 := by omega
    exact Nat.lt_of_mul_lt_mul_left (hbelow.trans_le hstretch)
  rw [hwords, card_Ico_ceilDiv hs]

end Sys2Proof.Machine
end

section
/-! PROOFS. NEXT_INT: the span, the offset drawn, and the value answered (R161-R165). -/

namespace Sys2Proof.Machine

/-! ## The order of a type (R77, R85) -/

/-- The least value of a type. -/
def typeMin (w : IntWidth) (signed : Bool) : Int := if signed then -2 ^ (intBits w - 1) else 0

section

variable (w : IntWidth) (signed : Bool)

/-- A value of a type is its pattern up to a multiple of 2^W. -/
theorem intValue_modEq (v : Nat) : intValue w signed v ≡ v [ZMOD 2 ^ intBits w] := by
  unfold intValue sval
  split_ifs
  · exact Int.sub_modulus_modEq_iff.2 rfl
  · rfl
  · rfl

/-- The values of a type are 2^W in a row. -/
theorem intValue_mem_Ico {v : Nat} (hv : v < 2 ^ intBits w) :
    intValue w signed v ∈ Set.Ico (typeMin w signed) (typeMin w signed + 2 ^ intBits w) := by
  have hhalf : 2 ^ intBits w = 2 * 2 ^ (intBits w - 1) := by cases w <;> rfl
  zify at hv hhalf
  unfold intValue sval typeMin
  rw [Set.mem_Ico]
  split_ifs with hsigned hle
  · zify at hle
    omega
  · zify at hle
    omega
  · omega

end

section

variable {w : IntWidth} {signed : Bool} {lo hi off r : Nat}

/-- A number of the type's range is the value of the pattern it is congruent to. -/
theorem intValue_eq_of_modEq {x : Int} (hr : r < 2 ^ intBits w)
    (hx : x ∈ Set.Ico (typeMin w signed) (typeMin w signed + 2 ^ intBits w)) (hmod : x ≡ r [ZMOD 2 ^ intBits w]) :
    intValue w signed r = x := by
  have hv := intValue_mem_Ico w signed hr
  rw [Set.mem_Ico] at hv hx
  have hdvd := ((intValue_modEq w signed r).trans hmod.symm).symm.dvd
  exact Int.sub_eq_zero.1 (Int.eq_zero_of_abs_lt_dvd hdvd (abs_lt.2 ⟨by omega, by omega⟩))

/-- The span is max − min in the type's order (R163). -/
theorem intSpan_eq_sub (hlo : lo < 2 ^ intBits w) (hhi : hi < 2 ^ intBits w)
    (hle : intValue w signed lo ≤ intValue w signed hi) :
    (intSpan w lo hi : Int) = intValue w signed hi - intValue w signed lo := by
  have hbelow := intValue_mem_Ico w signed hlo
  have habove := intValue_mem_Ico w signed hhi
  rw [Set.mem_Ico] at hbelow habove
  have hmod : (intValue w signed hi - intValue w signed lo) % 2 ^ intBits w = (hi - lo) % 2 ^ intBits w :=
    (intValue_modEq w signed hi).sub (intValue_modEq w signed lo)
  calc (intSpan w lo hi : Int) = (hi + 2 ^ intBits w - lo) % 2 ^ intBits w := by
        rw [intSpan, Int.natCast_mod, Nat.cast_sub (by omega)]
        push_cast
        rfl
    _ = (intValue w signed hi - intValue w signed lo) % 2 ^ intBits w := by
        rw [hmod, add_sub_right_comm, Int.add_emod_right]
    _ = _ := Int.emod_eq_of_lt (by omega) (by omega)

/-- Adding an offset of the span goes up in the type's order, also where the pattern wraps (R163). -/
theorem intValue_add (hlo : lo < 2 ^ intBits w) (hhi : hi < 2 ^ intBits w)
    (hle : intValue w signed lo ≤ intValue w signed hi) (hoff : off ≤ intSpan w lo hi) :
    intValue w signed ((lo + off) % 2 ^ intBits w) = intValue w signed lo + off := by
  have hspan := intSpan_eq_sub hlo hhi hle
  have hbelow := intValue_mem_Ico w signed hlo
  have habove := intValue_mem_Ico w signed hhi
  rw [Set.mem_Ico] at hbelow habove
  refine intValue_eq_of_modEq (Nat.mod_lt _ (Nat.two_pow_pos _)) ⟨by omega, by omega⟩ ?_
  push_cast
  exact ((intValue_modEq w signed lo).add_right _).trans (Int.mod_modEq _ _).symm

/-- A response value reads as the W-bit pattern it was made of (R85). -/
theorem intResult_reads (hr : r < 2 ^ intBits w) :
    (if signed then (intResult w signed r).toInt else ((intResult w signed r).toNat : Int)) = intValue w signed r := by
  have hword : 2 ^ intBits w ≤ 2 ^ 64 := Nat.pow_le_pow_right (by decide) (intBits_le w)
  cases signed with
  | false => exact congrArg Nat.cast ((BitVec.toNat_ofNat ..).trans (Nat.mod_eq_of_lt (hr.trans_le hword)))
  | true =>
    have hvalue := intValue_mem_Ico w true hr
    have hhalf : 2 ^ intBits w = 2 * 2 ^ (intBits w - 1) := by cases w <;> rfl
    zify at hhalf hword
    simp only [intValue, typeMin, if_true, Set.mem_Ico] at hvalue
    exact BitVec.toInt_ofInt_eq_self (by decide) (by omega) (by omega)

end

/-! ## The offset and the answer -/

section

variable {cfg : Config} {e e' : Engine} {span off : Nat}

/-- An offset lies in its span (R164). -/
theorem drawOffset_le (h : drawOffset cfg span e = some (off, e')) : off ≤ span := by
  unfold drawOffset at h
  split at h
  · cases h
    omega
  · obtain ⟨n, -, -, rfl, -⟩ := uniformBelow_some (Nat.succ_pos span) h
    exact Nat.le_of_lt_succ (hi64_mulfull_lt (Nat.succ_pos span) _)

/-- Below the full 64-bit range the offset is drawn by `UniformBelow(span + 1)` (R163). -/
theorem drawOffset_of_lt (h : span + 1 < 2 ^ 64) : drawOffset cfg span e = uniformBelow cfg (span + 1) e :=
  if_neg (by omega)

/-- For the full 64-bit range the offset is the raw word (R163). -/
theorem drawOffset_full : drawOffset cfg (2 ^ 64 - 1) e = some ((rawWord cfg e 0).toNat, discardSteps cfg 1 e) :=
  if_pos rfl

end

section

variable {w : IntWidth} {signed : Bool} {lo hi : Word} {s : State} (hs : ready s)
include hs

/-- An inverted range raises InvalidRange before any step (R161). -/
theorem exec_nextInt_inverted
    (hlt : intValue w signed (intOperand w hi) < intValue w signed (intOperand w lo)) :
    exec (.nextInt w signed lo hi) s = .next (raiseFault .invalidRange s) := by
  obtain ⟨hf, hc⟩ := hs
  rw [exec, execNextInt, whenConstructed_ready hf hc]
  exact if_pos (decide_eq_true hlt)

/-- With a range that is not inverted, NEXT_INT answers min plus the offset drawn (R163). -/
theorem exec_nextInt_answers {off : Nat} {e : Engine}
    (hle : intValue w signed (intOperand w lo) ≤ intValue w signed (intOperand w hi))
    (hdraw : drawOffset s.cfg (intSpan w (intOperand w lo) (intOperand w hi)) s.engine = some (off, e)) :
    exec (.nextInt w signed lo hi) s =
      .next (respondOk (intResult w signed ((intOperand w lo + off) % 2 ^ intBits w)) [] (s.setEngine e)) := by
  obtain ⟨hf, hc⟩ := hs
  have hgood : intRangeBad w signed (intOperand w lo) (intOperand w hi) = false := by simpa [intRangeBad] using hle
  simp [exec, execNextInt, whenConstructed_ready hf hc, hgood, hdraw]

/-- With a range that is not inverted, NEXT_INT is stuck when no offset is drawn (R165). -/
theorem exec_nextInt_stuck
    (hle : intValue w signed (intOperand w lo) ≤ intValue w signed (intOperand w hi))
    (hdraw : drawOffset s.cfg (intSpan w (intOperand w lo) (intOperand w hi)) s.engine = none) :
    exec (.nextInt w signed lo hi) s = .fault .neverAccepts := by
  obtain ⟨hf, hc⟩ := hs
  have hgood : intRangeBad w signed (intOperand w lo) (intOperand w hi) = false := by simpa [intRangeBad] using hle
  simp [exec, execNextInt, whenConstructed_ready hf hc, hgood, hdraw]

end

/-! ## The obligations -/

/-- Settles O34: an inverted range fails the check before any step. -/
theorem nextIntInvertedRangeRaisesInvalidRange : Obligations.NextIntInvertedRangeRaisesInvalidRange :=
  fun _ _ _ _ _ hs hlt => exec_nextInt_inverted hs hlt

/-- Settles O30: the offset is drawn by `UniformBelow`, which answers the first accepted word, or is the raw word. -/
theorem nextIntAnswersTheFirstAcceptedWord : Obligations.NextIntAnswersTheFirstAcceptedWord := by
  refine ⟨fun w signed lo hi off hle => ⟨?_, fun hoff => ?_⟩,
    fun w signed lo hi s hs hle => ⟨fun n hlt hrej hacc => ?_, fun hfull => ?_⟩⟩
  · exact intSpan_eq_sub (intOperand_lt w lo) (intOperand_lt w hi) hle
  · exact (intResult_reads (Nat.mod_lt _ (Nat.two_pow_pos _))).trans
      (intValue_add (intOperand_lt w lo) (intOperand_lt w hi) hle hoff)
  · exact exec_nextInt_answers hs hle ((drawOffset_of_lt hlt).trans
      ((uniformBelow_eq_some_iff (Nat.succ_pos _)).2 ⟨n, hrej, hacc, rfl, rfl⟩))
  · exact exec_nextInt_answers hs hle (hfull ▸ drawOffset_full)

/-- Settles O31: the offset lies in the span, and the value reads as min plus the offset. -/
theorem nextIntResultLiesInTheRange : Obligations.NextIntResultLiesInTheRange := by
  intro w signed lo hi s t hs h hf
  rcases Int.lt_or_le (intValue w signed (intOperand w hi)) (intValue w signed (intOperand w lo)) with hlt | hle
  · cases (exec_nextInt_inverted hs hlt).symm.trans h
    cases hf
  · cases hdraw : drawOffset s.cfg (intSpan w (intOperand w lo) (intOperand w hi)) s.engine with
    | none => cases (exec_nextInt_stuck hs hle hdraw).symm.trans h
    | some drawn =>
      obtain ⟨off, e⟩ := drawn
      cases (exec_nextInt_answers hs hle hdraw).symm.trans h
      have hoff := drawOffset_le hdraw
      have hspan := intSpan_eq_sub (intOperand_lt w lo) (intOperand_lt w hi) hle
      refine ⟨_, rfl, ?_⟩
      rw [intResult_reads (Nat.mod_lt _ (Nat.two_pow_pos _)),
        intValue_add (intOperand_lt w lo) (intOperand_lt w hi) hle hoff]
      omega

end Sys2Proof.Machine
end

section
/-! PROOFS. The values a format holds exactly, and what rounding does with them (R9, R168). -/

namespace Sys2Proof.Machine

/-- The format has the significant bits of this number of units. Below `overflowUnits` it holds it exactly. -/
def InFormat (f : FloatWidth) (units : Nat) : Prop := ∃ m q, m ≤ 2 ^ (fracBits f + 1) ∧ units = m * 2 ^ q

section

variable {f : FloatWidth} {n k u : Nat}

theorem inFormat_roundedUnits : InFormat f (roundedUnits f n k) :=
  ⟨_, _, rneShift_excessBits_le f n k, roundedUnits_eq f n k⟩

theorem inFormat_zero : InFormat f 0 := ⟨0, 0, Nat.zero_le _, rfl⟩

/-- Rounding does not pass a value of the format from below. -/
theorem roundedUnits_le (hu : InFormat f u) (h : n ≤ u * 2 ^ k) : roundedUnits f n k ≤ u := by
  obtain ⟨m, q, hm, rfl⟩ := hu
  have hnear := roundedUnits_nearest f n k (q := q) hm
  refine Nat.le_of_mul_le_mul_right ?_ (Nat.two_pow_pos k)
  omega

/-- Rounding does not pass a value of the format from above. -/
theorem le_roundedUnits (hu : InFormat f u) (h : u * 2 ^ k ≤ n) : u ≤ roundedUnits f n k := by
  obtain ⟨m, q, hm, rfl⟩ := hu
  have hnear := roundedUnits_nearest f n k (q := q) hm
  refine Nat.le_of_mul_le_mul_right ?_ (Nat.two_pow_pos k)
  omega

/-- A value of the format is not rounded. -/
theorem roundFloat_exact (hu : InFormat f u) (hlt : u < overflowUnits f) (neg : Bool) :
    roundFloat f neg (u * 2 ^ k) k = .fin neg u := by
  have hexact : roundedUnits f (u * 2 ^ k) k = u :=
    Nat.le_antisymm (roundedUnits_le hu le_rfl) (le_roundedUnits hu le_rfl)
  rw [roundFloat, hexact, if_neg (Nat.not_le_of_lt hlt)]

/-- A number of significant bits shifted into the exponent range is below the infinities. -/
theorem mul_two_pow_lt_overflowUnits {m q : Nat} (hm : m < 2 ^ (fracBits f + 1)) (hq : q + 1 < expAllOnes f) :
    m * 2 ^ q < overflowUnits f := calc
  m * 2 ^ q < 2 ^ (fracBits f + 1) * 2 ^ q := Nat.mul_lt_mul_of_pos_right hm (Nat.two_pow_pos q)
  _ = 2 ^ (fracBits f + 1 + q) := (Nat.pow_add ..).symm
  _ ≤ overflowUnits f := Nat.pow_le_pow_right (by decide) (by omega)

/-- A significand with its leading bit set, or rounded up to the power of two above it, has a fraction below it. -/
theorem exists_fraction_of_leading {m : Nat} (q : Nat) (hlead : 2 ^ fracBits f ≤ m)
    (hm : m ≤ 2 ^ (fracBits f + 1)) :
    ∃ m' q', m' < 2 ^ fracBits f ∧ m * 2 ^ q = (2 ^ fracBits f + m') * 2 ^ q' := by
  have hpow : 2 ^ (fracBits f + 1) = 2 * 2 ^ fracBits f := Nat.pow_succ'
  rcases Nat.lt_or_eq_of_le hm with hlt | rfl
  · exact ⟨m - 2 ^ fracBits f, q, by omega, by rw [Nat.add_sub_cancel' hlead]⟩
  · exact ⟨0, q + 1, Nat.two_pow_pos _, by ring⟩

/-- From `2^fracBits` units on, a value of the format has a leading bit in its place. -/
theorem InFormat.exists_fraction (hu : InFormat f u) (hnormal : 2 ^ fracBits f ≤ u) :
    ∃ m q, m < 2 ^ fracBits f ∧ u = (2 ^ fracBits f + m) * 2 ^ q := by
  have hpow : 2 ^ (fracBits f + 1) = 2 * 2 ^ fracBits f := Nat.pow_succ'
  obtain ⟨m, q, hm, rfl⟩ := hu
  induction q generalizing m with
  | zero => exact exists_fraction_of_leading 0 (by omega) hm
  | succ q ih =>
    rcases Nat.lt_or_ge m (2 ^ fracBits f) with hsmall | hlead
    · have hdouble : m * 2 ^ (q + 1) = 2 * m * 2 ^ q := by ring
      rw [hdouble] at hnormal ⊢
      exact ih (2 * m) (by omega) hnormal
    · exact exists_fraction_of_leading (q + 1) hlead hm

/-- A number of units that the format holds has an exponent field and a fraction field. -/
theorem InFormat.exists_valueOf (hu : InFormat f u) (hlt : u < overflowUnits f) (neg : Bool) :
    ∃ e m, m < 2 ^ fracBits f ∧ e < 2 ^ expBits f ∧ valueOf f neg e m = .fin neg u := by
  have hones : 1 < expAllOnes f := by cases f <;> decide
  have hexpo : expAllOnes f < 2 ^ expBits f := Nat.sub_lt (Nat.two_pow_pos _) (by decide)
  rcases Nat.lt_or_ge u (2 ^ fracBits f) with hsub | hnormal
  · refine ⟨0, u, hsub, by omega, ?_⟩
    rw [valueOf, ← expAllOnes, if_neg (show 0 ≠ expAllOnes f by omega), if_pos rfl]
  · obtain ⟨m, q, hm, rfl⟩ := hu.exists_fraction hnormal
    have hq : fracBits f + q < fracBits f + (expAllOnes f - 1) := by
      refine (Nat.pow_lt_pow_iff_right (by decide : 1 < 2)).1 (lt_of_le_of_lt ?_ hlt)
      rw [Nat.pow_add]
      exact Nat.mul_le_mul_right _ (Nat.le_add_right ..)
    refine ⟨q + 1, m, hm, by omega, ?_⟩
    rw [valueOf, ← expAllOnes, if_neg (show q + 1 ≠ expAllOnes f by omega), if_neg (Nat.succ_ne_zero q),
      Nat.add_sub_cancel]

/-- A finite value that the format holds is read back from its pattern (R9). -/
theorem floatOf_floatBits (hu : InFormat f u) (hlt : u < overflowUnits f) (neg : Bool) :
    floatOf f (floatBits f (.fin neg u)) = .fin neg u := by
  obtain ⟨e, m, hm, he, hvalue⟩ := hu.exists_valueOf hlt neg
  rw [← hvalue, floatBits_valueOf hm (by simp [hvalue]), floatOf_patternOf he hm]

/-- A finite value read from a pattern is one the format holds (R9). -/
theorem inFormat_of_floatOf {b : Word} {neg : Bool} (h : floatOf f b = .fin neg u) :
    InFormat f u ∧ u < overflowUnits f := by
  have hones : 1 < expAllOnes f := by cases f <;> decide
  have hpow : 2 ^ (fracBits f + 1) = 2 * 2 ^ fracBits f := Nat.pow_succ'
  have hfrac : b.toNat % 2 ^ fracBits f < 2 ^ fracBits f := Nat.mod_lt _ (Nat.two_pow_pos _)
  have hexpo : (b.toNat >>> fracBits f) % 2 ^ expBits f ≤ expAllOnes f :=
    Nat.le_sub_one_of_lt (Nat.mod_lt _ (Nat.two_pow_pos _))
  simp only [floatOf] at h
  split at h
  · split at h <;> cases h
  · split at h
    · cases h
      exact ⟨⟨_, 0, by omega, (Nat.mul_one _).symm⟩,
        (Nat.mul_one _).symm.trans_lt (mul_two_pow_lt_overflowUnits (q := 0) (by omega) hones)⟩
    · cases h
      rw [Nat.shiftLeft_eq]
      exact ⟨⟨_, _, by omega, rfl⟩, mul_two_pow_lt_overflowUnits (by omega) (by omega)⟩

end

/-! ## The unit interval (R168) -/

section

variable (f : FloatWidth) (x : Word)

/-- The top bits of a word are as many as the format has significant bits. -/
theorem topBits_lt : x.toNat >>> (63 - fracBits f) < 2 ^ (fracBits f + 1) := by
  have hbits : 64 = 63 - fracBits f + (fracBits f + 1) := by cases f <;> rfl
  rw [Nat.shiftRight_eq_div_pow]
  refine Nat.div_lt_of_lt_mul ?_
  rw [← Nat.pow_add, ← hbits]
  exact x.isLt

/-- `Unit(x)` is a value of the format below the infinities. -/
theorem exists_unitFloat_eq :
    ∃ u, unitFloat f x = .fin false u ∧ InFormat f u ∧ u < overflowUnits f ∧ u < 2 ^ unitExp f ∧
      u * 2 ^ (fracBits f + 1) = x.toNat / 2 ^ (63 - fracBits f) * 2 ^ unitExp f := by
  have htop := topBits_lt f x
  have hunit : 2 ^ unitExp f = 2 ^ (unitExp f - (fracBits f + 1)) * 2 ^ (fracBits f + 1) := by
    rw [← Nat.pow_add, Nat.sub_add_cancel (by cases f <;> decide)]
  refine ⟨_, rfl, ?_⟩
  rw [Nat.shiftLeft_eq]
  refine ⟨⟨_, _, htop.le, rfl⟩, mul_two_pow_lt_overflowUnits htop (by cases f <;> decide), ?_, ?_⟩
  · rw [hunit, Nat.mul_comm]
    exact Nat.mul_lt_mul_of_pos_left htop (Nat.two_pow_pos _)
  · rw [hunit, Nat.mul_assoc, Nat.shiftRight_eq_div_pow]

end

/-- Settles O37: the top bits of the word are a significand, and below it stand only zeros. -/
theorem unitFloatIsExactAndBelowOne : Obligations.UnitFloatIsExactAndBelowOne := by
  intro f x
  obtain ⟨u, hu, hformat, hlt, hone, hscale⟩ := exists_unitFloat_eq f x
  rw [hu]
  refine ⟨floatOf_floatBits hformat hlt false, ?_, u, rfl, hscale⟩
  simpa [floatLt, signedUnits] using (by exact_mod_cast hone)

end Sys2Proof.Machine
end

section
/-! PROOFS. NEXT_FLOAT and NEXT_DOUBLE: the checks, the loop, and the range of the result (R167-R171). -/

namespace Sys2Proof.Machine

/-! ## The loop (R169, R170) -/

section

variable {cfg : Config} {f : FloatWidth} {lo hi d : FloatVal} {e : Engine}

/-- The loop of NEXT_FLOAT answers the first result below `hi`, if there is one. -/
theorem floatLoop_first {n : Nat} (hrej : ∀ k, k < n → floatLt (affine f lo d (rawWord cfg e k)) hi = false)
    (hacc : floatLt (affine f lo d (rawWord cfg e n)) hi = true) :
    floatLoop cfg f lo hi d (engineStateBound cfg e) e =
      some (affine f lo d (rawWord cfg e n), discardSteps cfg (n + 1) e) := by
  cases hrun : floatLoop cfg f lo hi d (engineStateBound cfg e) e with
  | none =>
    have hnever := forall_rawWord_of_lt_bound (P := fun x => floatLt (affine f lo d x) hi = false)
      (floatLoop_none hrun) n
    cases hnever.symm.trans hacc
  | some drawn =>
    obtain ⟨n', -, hrej', hacc', hr, he⟩ := floatLoop_some hrun
    obtain rfl : n' = n := Nat.le_antisymm
      (Nat.le_of_not_lt fun hlt => Bool.noConfusion ((hrej' n hlt).symm.trans hacc))
      (Nat.le_of_not_lt fun hlt => Bool.noConfusion ((hrej n' hlt).symm.trans hacc'))
    rw [← hr, ← he]

/-- The loop of NEXT_FLOAT has no result when none is ever below `hi`. -/
theorem floatLoop_never (h : ∀ k, floatLt (affine f lo d (rawWord cfg e k)) hi = false) (fuel : Nat) :
    floatLoop cfg f lo hi d fuel e = none := by
  cases hrun : floatLoop cfg f lo hi d fuel e with
  | none => rfl
  | some drawn =>
    obtain ⟨n, -, -, hacc, -⟩ := floatLoop_some hrun
    cases (h n).symm.trans hacc

end

/-! ## The checks (R169, R171) -/

section

variable {f : FloatWidth} {x y : FloatVal}

/-- Ordered finite values, as signed numbers of units. -/
theorem fin_of_floatLt (h : floatLt x y = true) (hx : isInfinite x = false) (hy : isInfinite y = false) :
    ∃ nx ux ny uy, x = .fin nx ux ∧ y = .fin ny uy ∧ signedUnits nx ux < signedUnits ny uy := by
  cases x with
  | nan => cases h
  | inf neg => cases hx
  | fin nx ux =>
    cases y with
    | nan => cases h
    | inf neg => cases hy
    | fin ny uy => exact ⟨nx, ux, ny, uy, rfl, rfl, of_decide_eq_true h⟩

/-- Equal values with a finite one are finite. -/
theorem fin_of_floatEq (h : floatEq x y = true) (hx : isInfinite x = false) :
    ∃ nx ux ny uy, x = .fin nx ux ∧ y = .fin ny uy ∧ signedUnits nx ux = signedUnits ny uy := by
  cases x with
  | nan => cases h
  | inf neg => cases hx
  | fin nx ux =>
    cases y with
    | nan | inf => cases h
    | fin ny uy => exact ⟨nx, ux, ny, uy, rfl, rfl, of_decide_eq_true h⟩

/-- Negation changes the sign. -/
theorem signedUnits_not (neg : Bool) (u : Nat) : signedUnits (!neg) u = -signedUnits neg u := by
  cases neg <;> simp [signedUnits]

/-- No value is less and not less at once: an inverted range fails the check `min ≤ max`. -/
theorem floatLe_eq_false_of_floatLt (h : floatLt y x = true) : floatLe x y = false := by
  cases y with
  | nan => cases h
  | inf ny =>
    cases x with
    | nan => cases h
    | inf nx => cases ny <;> cases nx <;> trivial
    | fin nx ux => cases ny <;> trivial
  | fin ny uy =>
    cases x with
    | nan => cases h
    | inf nx => cases nx <;> trivial
    | fin nx ux =>
      have hlt : signedUnits ny uy < signedUnits nx ux := of_decide_eq_true h
      simp only [floatLe, floatLt, floatEq, Bool.or_eq_false_iff, decide_eq_false_iff_not]
      omega

/-- Every kind of bad range fails the checks. -/
theorem floatRangeBad_of_bad (h : x = .nan ∨ y = .nan ∨ floatLt y x = true ∨ isInfinite x = true ∨
    isInfinite y = true ∨ isInfinite (floatSub f y x) = true) : floatRangeBad f x y = true := by
  have hle : x = .nan ∨ y = .nan ∨ floatLt y x = true → floatLe x y = false := by
    rintro (rfl | rfl | hlt)
    · rfl
    · cases x <;> rfl
    · exact floatLe_eq_false_of_floatLt hlt
  simp only [floatRangeBad, Bool.or_eq_true, Bool.not_eq_true']
  tauto

/-- A proper range passes the checks, and is not degenerate. -/
theorem floatRange_proper (h : floatLt x y = true) (hx : isInfinite x = false) (hy : isInfinite y = false)
    (hspan : isInfinite (floatSub f y x) = false) : floatRangeBad f x y = false ∧ floatEq x y = false := by
  refine ⟨by simp [floatRangeBad, floatLe, h, hx, hy, hspan], ?_⟩
  obtain ⟨nx, ux, ny, uy, rfl, rfl, hlt⟩ := fin_of_floatLt h hx hy
  exact decide_eq_false hlt.ne

/-- A degenerate range of finite bounds passes the checks: its span is a zero. -/
theorem floatRange_degenerate (h : floatEq x y = true) (hx : isInfinite x = false) : floatRangeBad f x y = false := by
  obtain ⟨nx, ux, ny, uy, rfl, rfl, heq⟩ := fin_of_floatEq h hx
  have hspan : isInfinite (floatSub f (.fin ny uy) (.fin nx ux)) = false := by
    rw [floatSub, floatNeg, floatAdd_fin, if_pos (by rw [signedUnits_not]; omega)]
    rfl
  have hfin : ∀ neg u, isInfinite (.fin neg u) = false := fun _ _ => rfl
  simp [floatRangeBad, floatLe, h, hspan, hfin]

end

section

variable {f : FloatWidth} {lo hi : Word} {s : State} {lov hiv : FloatVal} (hs : ready s)
  (hlo : floatOf f (floatOperand f lo) = lov) (hhi : floatOf f (floatOperand f hi) = hiv)
include hs hlo hhi

/-- A bad range raises InvalidRange before any step (R169). -/
theorem exec_nextFloat_bad (hbad : floatRangeBad f lov hiv = true) :
    exec (.nextFloat f lo hi) s = .next (raiseFault .invalidRange s) := by
  obtain ⟨hf, hc⟩ := hs
  simp [exec, execNextFloat, whenConstructed_ready hf hc, hlo, hhi, hbad]

/-- In the degenerate range NEXT_FLOAT answers MIN's own pattern after one step (R171). -/
theorem exec_nextFloat_degenerate (hgood : floatRangeBad f lov hiv = false) (heq : floatEq lov hiv = true) :
    exec (.nextFloat f lo hi) s =
      .next (respondOk (floatOperand f lo) [] (s.setEngine (engineStep s.cfg s.engine).2)) := by
  obtain ⟨hf, hc⟩ := hs
  simp [exec, execNextFloat, whenConstructed_ready hf hc, hlo, hhi, hgood, heq]

/-- In a proper range NEXT_FLOAT answers what its loop does (R169). -/
theorem exec_nextFloat_answers {r : FloatVal} {e : Engine} (hgood : floatRangeBad f lov hiv = false)
    (hne : floatEq lov hiv = false)
    (hloop : floatLoop s.cfg f lov hiv (floatSub f hiv lov) (engineStateBound s.cfg s.engine) s.engine = some (r, e)) :
    exec (.nextFloat f lo hi) s = .next (respondOk (floatBits f r) [] (s.setEngine e)) := by
  obtain ⟨hf, hc⟩ := hs
  simp [exec, execNextFloat, whenConstructed_ready hf hc, hlo, hhi, hgood, hne, hloop]

/-- In a proper range NEXT_FLOAT is stuck when its loop has no result (R170). -/
theorem exec_nextFloat_stuck (hgood : floatRangeBad f lov hiv = false) (hne : floatEq lov hiv = false)
    (hloop : floatLoop s.cfg f lov hiv (floatSub f hiv lov) (engineStateBound s.cfg s.engine) s.engine = none) :
    exec (.nextFloat f lo hi) s = .fault .neverAccepts := by
  obtain ⟨hf, hc⟩ := hs
  simp [exec, execNextFloat, whenConstructed_ready hf hc, hlo, hhi, hgood, hne, hloop]

end

/-- Settles O46: every kind of bad range fails the checks, which come before any step. -/
theorem nextFloatBadRangeRaisesInvalidRange : Obligations.NextFloatBadRangeRaisesInvalidRange :=
  fun _ _ _ _ hs hbad => exec_nextFloat_bad hs rfl rfl (floatRangeBad_of_bad hbad)

/-- Settles O45: the span of equal finite bounds is a zero, so the checks pass. -/
theorem nextFloatDegenerateRangeAnswersMin : Obligations.NextFloatDegenerateRangeAnswersMin :=
  fun _ _ _ _ hs heq hfin => exec_nextFloat_degenerate hs rfl rfl (floatRange_degenerate heq hfin) heq

/-- Settles O43: a proper range passes the checks, and the loop answers the first result below max. -/
theorem nextFloatAnswersTheFirstResultBelowMax : Obligations.NextFloatAnswersTheFirstResultBelowMax := by
  intro f lo hi s n hs lov hiv result hlt hlo hhi hspan hrej hacc
  obtain ⟨hgood, hne⟩ := floatRange_proper hlt hlo hhi hspan
  exact exec_nextFloat_answers hs rfl rfl hgood hne (floatLoop_first hrej hacc)

/-- Settles O47: a loop that accepts no word has no result, whatever its fuel. -/
theorem endlessRejectionStopsByName : Obligations.EndlessRejectionStopsByName := by
  constructor
  · intro w signed lo hi s hs hle hlt hrej
    exact exec_nextInt_stuck hs hle ((drawOffset_of_lt hlt).trans (uniformBelow_eq_none (Nat.succ_pos _) hrej))
  · intro f lo hi s hs lov hiv hlt hlo hhi hspan hrej
    obtain ⟨hgood, hne⟩ := floatRange_proper hlt hlo hhi hspan
    exact exec_nextFloat_stuck hs rfl rfl hgood hne (floatLoop_never hrej _)

/-! ## The result (R170) -/

section

variable {f : FloatWidth}

/-- A rounded magnitude is an infinity or a value the format holds. -/
theorem roundFloat_cases (f : FloatWidth) (neg : Bool) (n k : Nat) :
    roundFloat f neg n k = .inf neg ∨
      roundFloat f neg n k = .fin neg (roundedUnits f n k) ∧ roundedUnits f n k < overflowUnits f := by
  unfold roundFloat
  split
  · exact .inl rfl
  · exact .inr ⟨rfl, Nat.lt_of_not_le ‹_›⟩

/-- Both zeros are the number 0. -/
theorem signedUnits_zero (neg : Bool) : signedUnits neg 0 = 0 := by cases neg <;> rfl

/-- What may come of `l + p` with p ≥ 0: +∞, or a value of the format that is not below l, since rounding does not
pass l. -/
theorem floatAdd_nonneg {nl : Bool} {l : Nat} (p : Nat) (hl : InFormat f l) (hlt : l < overflowUnits f) :
    floatAdd f (.fin nl l) (.fin false p) = .inf false ∨
      ∃ neg u, floatAdd f (.fin nl l) (.fin false p) = .fin neg u ∧ InFormat f u ∧ u < overflowUnits f ∧
        signedUnits nl l ≤ signedUnits neg u := by
  have hp : signedUnits false p = p := rfl
  have hsign : signedUnits nl l = l ∨ signedUnits nl l = -l := by cases nl <;> simp [signedUnits]
  rw [floatAdd_fin]
  generalize hsum : signedUnits nl l + signedUnits false p = sum
  split
  · exact .inr ⟨_, 0, rfl, inFormat_zero, Nat.zero_lt_of_lt hlt, by rw [signedUnits_zero]; omega⟩
  · rename_i hne
    rcases Int.lt_or_gt_of_ne hne with hneg | hpos
    · have hround : roundedUnits f sum.natAbs 0 ≤ l := roundedUnits_le hl (by omega)
      have hvalue : signedUnits true (roundedUnits f sum.natAbs 0) = -roundedUnits f sum.natAbs 0 := rfl
      rw [decide_eq_true hneg, roundFloat, if_neg (by omega)]
      exact .inr ⟨true, _, rfl, inFormat_roundedUnits, by omega, by omega⟩
    · have hround : l * 2 ^ 0 ≤ sum.natAbs → l ≤ roundedUnits f sum.natAbs 0 := le_roundedUnits hl
      have hvalue : signedUnits false (roundedUnits f sum.natAbs 0) = roundedUnits f sum.natAbs 0 := rfl
      rw [decide_eq_false (by omega)]
      exact (roundFloat_cases f false sum.natAbs 0).imp_right fun ⟨hfin, hfinlt⟩ =>
        ⟨false, _, hfin, inFormat_roundedUnits, hfinlt, by omega⟩

/-- A product with a unit float is not negative. -/
theorem floatMul_unitFloat (x : Word) (d : Nat) :
    floatMul f (unitFloat f x) (.fin false d) = .inf false ∨
      ∃ p, floatMul f (unitFloat f x) (.fin false d) = .fin false p := by
  obtain ⟨u, hu, -⟩ := exists_unitFloat_eq f x
  rw [hu]
  exact (roundFloat_cases f false (u * d) (unitExp f)).imp_right fun ⟨hfin, _⟩ => ⟨_, hfin⟩

/-- The span of a proper range is not negative. -/
theorem floatSub_of_lt {nx ny : Bool} {ux uy : Nat} (hlt : signedUnits nx ux < signedUnits ny uy)
    (hspan : isInfinite (floatSub f (.fin ny uy) (.fin nx ux)) = false) :
    ∃ d, floatSub f (.fin ny uy) (.fin nx ux) = .fin false d := by
  rw [floatSub, floatNeg, floatAdd_fin, signedUnits_not, if_neg (by omega), decide_eq_false (by omega)] at *
  rcases roundFloat_cases f false (signedUnits ny uy + -signedUnits nx ux).natAbs 0 with h | ⟨h, -⟩
  · rw [h] at hspan
    cases hspan
  · exact ⟨_, h⟩

/-- What the affine map may answer: +∞, or a value of the format that is not below min. -/
theorem affine_cases {nl : Bool} {l : Nat} (d : Nat) (x : Word) (hl : InFormat f l) (hlt : l < overflowUnits f) :
    affine f (.fin nl l) (.fin false d) x = .inf false ∨
      ∃ neg u, affine f (.fin nl l) (.fin false d) x = .fin neg u ∧ InFormat f u ∧ u < overflowUnits f ∧
        signedUnits nl l ≤ signedUnits neg u := by
  unfold affine
  rcases floatMul_unitFloat x d with h | ⟨p, h⟩
  · exact .inl (by rw [h]; rfl)
  · rw [h]
    exact floatAdd_nonneg p hl hlt

end

/-- Settles O44: the loop answers a result below max, and rounding does not pass min, a value of the format. -/
theorem nextFloatResultLiesInTheHalfOpenRange : Obligations.NextFloatResultLiesInTheHalfOpenRange := by
  intro f lo hi s t hs hlt h hf
  generalize hlo : floatOf f (floatOperand f lo) = lov, hhi : floatOf f (floatOperand f hi) = hiv at *
  cases hbad : floatRangeBad f lov hiv with
  | true =>
    cases (exec_nextFloat_bad hs hlo hhi hbad).symm.trans h
    cases hf
  | false =>
    simp only [floatRangeBad, Bool.or_eq_false_iff] at hbad
    obtain ⟨⟨⟨-, hlofin⟩, hhifin⟩, hspan⟩ := hbad
    obtain ⟨hgood, hne⟩ := floatRange_proper hlt hlofin hhifin hspan
    cases hloop : floatLoop s.cfg f lov hiv (floatSub f hiv lov) (engineStateBound s.cfg s.engine) s.engine with
    | none => cases (exec_nextFloat_stuck hs hlo hhi hgood hne hloop).symm.trans h
    | some drawn =>
      obtain ⟨r, e⟩ := drawn
      cases (exec_nextFloat_answers hs hlo hhi hgood hne hloop).symm.trans h
      obtain ⟨n, -, -, hbelow, rfl, -⟩ := floatLoop_some hloop
      obtain ⟨nl, l, nh, u, rfl, rfl, hunits⟩ := fin_of_floatLt hlt hlofin hhifin
      obtain ⟨d, hd⟩ := floatSub_of_lt hunits hspan
      obtain ⟨hformat, hoverflow⟩ := inFormat_of_floatOf hlo
      rw [hd] at hbelow ⊢
      refine ⟨_, rfl, ?_⟩
      rcases affine_cases d (rawWord s.cfg s.engine n) hformat hoverflow with hr | ⟨neg, v, hr, hv, hvlt, hle⟩
      · rw [hr] at hbelow
        cases hbelow
      · rw [hr] at hbelow ⊢
        rw [floatOf_floatBits hv hvlt]
        refine ⟨?_, hbelow⟩
        simp only [floatLe, floatLt, floatEq, Bool.or_eq_true, decide_eq_true_eq]
        omega

/-! ## NEXT_DOUBLE (R167) -/

/-- Settles O38: past the gates, the command is one step of the engine. -/
theorem nextDoubleAnswersTheUnitOfOneWord : Obligations.NextDoubleAnswersTheUnitOfOneWord := by
  intro s ⟨hf, hc⟩
  rw [exec, execNextDouble, whenConstructed_ready hf hc]
  rfl

/-- From 0 to 1 the affine map is the unit float: neither the product nor the sum is rounded. -/
theorem affine_unitRange (f : FloatWidth) (x : Word) {d : FloatVal} (hd : d = .fin false (2 ^ unitExp f)) :
    affine f (.fin false 0) d x = unitFloat f x := by
  obtain ⟨u, hu, hformat, hlt, -, -⟩ := exists_unitFloat_eq f x
  have hproduct : floatMul f (.fin false u) (.fin false (2 ^ unitExp f)) = .fin false u :=
    roundFloat_exact hformat hlt false
  have hsum : signedUnits false 0 + signedUnits false u = u := Int.zero_add _
  rw [affine, hu, hd, hproduct, floatAdd_fin, hsum]
  split
  · rename_i hzero
    rw [Int.natCast_eq_zero.1 hzero]
    rfl
  · rw [decide_eq_false (by omega), Int.natAbs_natCast]
    exact (congrArg (roundFloat f false · 0) (Nat.mul_one u).symm).trans (roundFloat_exact hformat hlt false)

/-- Draw commands whose bodies do the same in a ready block are the same in every block (R213). -/
theorem whenConstructed_congr {s : State} {body body' : State → Host.Outcome State Fault Refusal}
    (h : ready s → body s = body' s) : whenConstructed s body = whenConstructed s body' := by
  simp only [whenConstructed, unlessFaulted]
  split
  · rfl
  · split
    · exact h ⟨Option.not_isSome_iff_eq_none.1 ‹_›, ‹_›⟩
    · rfl

/-- Settles O39: behind the same gates, the first result of the loop is the unit float of its word, and below 1. -/
theorem nextDoubleIsNextFloatOfTheUnitRange : Obligations.NextDoubleIsNextFloatOfTheUnitRange := by
  intro s
  have hlo : floatOf .f64 (floatOperand .f64 0) = .fin false 0 := by decide +kernel
  have hhi : floatOf .f64 (floatOperand .f64 0x3FF0000000000000) = .fin false (2 ^ unitExp .f64) := by decide +kernel
  have hspan : floatSub .f64 (.fin false (2 ^ unitExp .f64)) (.fin false 0) = .fin false (2 ^ unitExp .f64) := by
    decide +kernel
  have hlt : floatLt (.fin false 0) (.fin false (2 ^ unitExp .f64)) = true := by decide +kernel
  have hspanfin : isInfinite (floatSub .f64 (.fin false (2 ^ unitExp .f64)) (.fin false 0)) = false := by
    rw [hspan]
    rfl
  by_cases hs : ready s
  · obtain ⟨hgood, hne⟩ := floatRange_proper hlt rfl rfl hspanfin
    obtain ⟨-, hone, -⟩ := unitFloatIsExactAndBelowOne .f64 (rawWord s.cfg s.engine 0)
    have haffine := affine_unitRange .f64 (rawWord s.cfg s.engine 0) hspan
    rw [← haffine] at hone
    have hloop := floatLoop_first (fun k hk => absurd hk (Nat.not_lt_zero k)) hone
    rw [nextDoubleAnswersTheUnitOfOneWord s hs, exec_nextFloat_answers hs hlo hhi hgood hne hloop, haffine]
    rfl
  · rw [exec, execNextDouble, exec, execNextFloat]
    exact whenConstructed_congr fun h => absurd h hs

end Sys2Proof.Machine
end

section
/-! PROOFS. FILL_BYTES and GENERATE_BYTES: the cases of the commands, and the bytes of memory they write (R190-R195). -/

namespace Sys2Proof.Machine

/-! ## The bytes the host memory admits (R51) -/

/-- No region meets a range of addresses exactly when no address of the range lies in a region. -/
theorem admitsRange_iff {cfg : Config} {base len : Nat} :
    admitsRange cfg base len = true ↔ ∀ a, base ≤ a → a < base + len → admits cfg a = true := by
  simp only [admitsRange, admits, List.all_eq_true, decide_eq_true_eq]
  constructor
  · intro h a hlow hhigh r hr
    have := h r hr
    omega
  · intro h r hr
    by_contra hmeets
    -- The first address the range and the region share.
    have := h (max base r.base) (by omega) (by omega) r hr
    omega

/-! ## The commands behind their gates -/

section

variable {base len : Word} {s t : State}

/-- What a FILL_BYTES that writes its buffer makes of the state (R190). -/
def filled (base len : Word) (s : State) : State :=
  respondOk 0 [] ((s.setEngine (fill s.cfg len.toNat s.engine).2).setMem
    (writeBytes s.mem base.toNat (fill s.cfg len.toNat s.engine).1))

/-- A fill of no bytes takes no step and writes no byte (R193). -/
theorem filled_of_len_zero (hlen : len = 0) : filled base len s = respondOk 0 [] s := by
  subst hlen
  rfl

/-- A filled buffer reads as the bytes of the fill, every other address as before (R192). -/
theorem readByte_filled (a : Nat) :
    readByte (filled base len s).mem a =
      if base.toNat ≤ a ∧ a < base.toNat + len.toNat then (fill s.cfg len.toNat s.engine).1[a - base.toNat]?
      else readByte s.mem a := by
  simp [filled, readByte_writeBytes, fill_length]

section

variable (hs : ready s)
include hs

/-- Past the gates, FILL_BYTES goes by its checks in their order (R190, R213). -/
theorem exec_fillBytes_ready :
    exec (.fillBytes base len) s =
      if len.toNat = 0 then .next (respondOk 0 [] s)
      else if bufferTooLong s.cfg base.toNat len.toNat then .next (raiseFault .bufferBounds s)
      else if admitsRange s.cfg base.toNat len.toNat then .next (filled base len s)
      else .fault .hostWriteRefused := by
  rw [exec, execFillBytes, whenConstructed_ready hs.1 hs.2]
  rfl

/-- A FILL_BYTES that goes on past the gates raises BufferBounds or fills its buffer, the empty one included. -/
theorem exec_fillBytes_next (h : exec (.fillBytes base len) s = .next t) :
    t = raiseFault .bufferBounds s ∨ t = filled base len s := by
  rw [exec_fillBytes_ready hs] at h
  split at h
  · rename_i hlen
    cases h
    exact .inr (filled_of_len_zero (BitVec.eq_of_toNat_eq hlen)).symm
  · split at h
    · cases h
      exact .inl rfl
    · split at h
      · cases h
        exact .inr rfl
      · cases h

end

end

/-! ## The obligations -/

/-- Settles O48: each check of the command is the condition of its case. -/
theorem fillBytesByItsCases : Obligations.FillBytesByItsCases := by
  intro base len s hs
  rw [exec_fillBytes_ready hs]
  have hempty : len.toNat = 0 ↔ len = 0 := BitVec.toNat_inj (y := 0)
  simp only [hempty, bufferTooLong, admitsRange_iff, decide_eq_true_eq]
  split
  · rfl
  · split
    · rfl
    · split <;> rfl

/-- Settles O49: the command raised no fault, so it filled its buffer. -/
theorem fillBytesWritesExactlyTheBuffer : Obligations.FillBytesWritesExactlyTheBuffer := by
  intro base len s t hs h hf a
  rcases exec_fillBytes_next hs h with rfl | rfl
  · cases hf
  · exact readByte_filled a

/-- Settles O50: the loop runs over ceil(L / 8) words, enough for the L bytes. -/
theorem fillTakesCeilingOfEighthSteps : Obligations.FillTakesCeilingOfEighthSteps :=
  fun cfg len e => ⟨fill_length cfg len e, fill_engine cfg len e⟩

/-- Settles O55: refused, a fault raised, or the buffer filled, which takes engine steps and leaves the bytes outside. -/
theorem fillBytesFrame : Obligations.FillBytesFrame := by
  intro base len s t h
  have hgates : execFillBytes base len s = .next t := h
  rcases whenConstructed_cases hgates with ⟨-, ht⟩ | ⟨hf, -, ht⟩ | ⟨hf, hc, -⟩
  · cases ht
    simp
  · cases ht
    simp [hf]
  · rcases exec_fillBytes_next ⟨hf, hc⟩ h with rfl | rfl
    · simp [hf]
    · have hvariant : engineVariant (fill s.cfg len.toNat s.engine).2 = engineVariant s.engine := by
        rw [fill_engine, discardSteps_variant]
      exact ⟨rfl, hvariant, rfl, rfl, .inl rfl, rfl, rfl, rfl, rfl, rfl,
        fun a hout => (readByte_filled a).trans (if_neg hout)⟩

/-- Settles O52: past the gates, the command is one fill. -/
theorem generateBytesAnswersTheFilledBytes : Obligations.GenerateBytesAnswersTheFilledBytes := by
  intro count s ⟨hf, hc⟩
  rw [exec, execGenerateBytes, whenConstructed_ready hf hc]
  rfl

end Sys2Proof.Machine
end

section
/-! PROOFS. Command control: the command at the port, READ_STATUS and the reads, and the draws before construction
(R210-R213). -/

namespace Sys2Proof.Machine

/-! ## The command at the port (R70, R212) -/

section

variable {i : Instr} {s : State} {tail : List HostEvent}

/-- The words of a well-formed command are taken from the port as that command, and no word behind them (R70). -/
theorem fetch_encode_append (hi : i.wellFormed = true) :
    fetch ((encode i).map .word ++ tail) = .command i tail := by
  have hdec := decodeReadsBackEveryEncodedCommand i (leadingWords tail) hi
  have hlen : ((encode i).map HostEvent.word).length = 1 + i.operands.length := by simp [encode, Nat.add_comm]
  simp only [fetch, leadingWords_words_append, hdec, List.drop_left' hlen]

/-- A step on a well-formed command, with its words consumed (R212). -/
theorem step_of_command (hi : i.wellFormed = true) (hin : s.inputs = (encode i).map .word ++ tail) :
    step s = resetIfStuck s tail (exec i (s.setInputs tail)) := by
  simp only [step, hin, fetch_encode_append hi]

end

/-- Settles O5: the step is the command's outcome, and a stuck one looks for a reset behind the words. -/
theorem stepRunsTheCommandAtThePort : Obligations.StepRunsTheCommandAtThePort := by
  intro s i tail hi hin
  rw [step_of_command hi hin]
  refine ⟨fun t h => ?_, fun r h => ?_, fun f h => ⟨fun ws htail => ?_, fun ws later htail => ?_⟩⟩
  · rw [h, resetIfStuck_next]
  · rw [h, resetIfStuck_refused]
  · have hafter : afterWords tail = [] := by simpa [htail, afterWords] using afterWords_words_append ws []
    rw [h, resetIfStuck_stuck hafter]
  · rw [h, htail, resetIfStuck_reset]

/-! ## The reads (R138, R139, R210) -/

/-- Settles O17: READ_STATUS stands behind no gate. -/
theorem readStatusAnswersTheStatusWord : Obligations.ReadStatusAnswersTheStatusWord := fun _ => rfl

/-- A read sends one response and does nothing else, faulted or not. -/
theorem exec_of_read {i : Instr} (s : State) (hi : i = .readStatus ∨ i = .readMin ∨ i = .readMax) :
    ∃ code value, exec i s = .next (respond code value [] s) := by
  cases hf : s.status.fault with
  | some c => exact exec_of_faulted i (by simp [hf])
  | none =>
    obtain ⟨hmin, hmax⟩ := readMinAndReadMaxAnswerTheBounds s hf
    rcases hi with rfl | rfl | rfl
    · exact ⟨_, _, readStatusAnswersTheStatusWord s⟩
    · exact ⟨_, _, hmin⟩
    · exact ⟨_, _, hmax⟩

/-- Settles O53: a response alone leaves every other field. -/
theorem readCommandsFrame : Obligations.ReadCommandsFrame := by
  intro i s t hi h
  obtain ⟨code, value, hread⟩ := exec_of_read s hi
  cases hread.symm.trans h
  simp

/-! ## Before construction (R211) -/

section

variable {i : Instr} {s : State}

/-- Every draw command stands behind the gate of construction (R211). -/
theorem exec_draw_early (hi : isDraw i = true) (hf : s.status.fault = none) (hc : s.status.constructed = false) :
    exec i s = .next (raiseFault .notConstructed s) := by
  unfold exec
  cases i with
  | nextRaw | nextDouble | nextInt | nextFloat | fillBytes | generateBytes => exact whenConstructed_early hf hc
  | constructSeeded | constructEntropy | readStatus | readMin | readMax => cases hi

/-- A well-formed command that draws nothing is finished without a fault in a block that has none (R211, R225). -/
theorem exec_nondraw_clear (hi : isDraw i = false) (hwf : i.wellFormed = true) (hf : s.status.fault = none) :
    ∃ t, exec i s = .next t ∧ t.status.fault = none := by
  obtain ⟨hmin, hmax⟩ := readMinAndReadMaxAnswerTheBounds s hf
  cases i with
  | constructSeeded v seed => exact ⟨_, execConstructSeeded_clear hf (beq_iff_eq.1 hwf), hf⟩
  | constructEntropy v => exact ⟨_, execConstructEntropy_clear hf, by simp [hf]⟩
  | readStatus => exact ⟨_, readStatusAnswersTheStatusWord s, hf⟩
  | readMin => exact ⟨_, hmin, hf⟩
  | readMax => exact ⟨_, hmax, hf⟩
  | nextRaw | nextDouble | nextInt | nextFloat | fillBytes | generateBytes => cases hi

end

/-- Settles O13: the gate answers the draws, and no other command can raise a fault. -/
theorem drawBeforeConstructionRaisesNotConstructed : Obligations.DrawBeforeConstructionRaisesNotConstructed :=
  fun _ _ hf hc => ⟨fun hi => exec_draw_early hi hf hc, fun hi hwf => exec_nondraw_clear hi hwf hf⟩

end Sys2Proof.Machine
end

section
/-! PROOFS. Exceptions: what a faulted block refuses, and what a raised fault changes (R222-R224). -/

namespace Sys2Proof.Machine

section

variable {i : Instr} {s t : State} {c : Cause}

/-! ## While FAULTED = 1 (R223) -/

/-- While faulted, every finished command but READ_STATUS is a refusal. -/
theorem CommandAnswer.eq_refused (h : CommandAnswer i s t) (hf : s.status.fault.isSome = true)
    (hi : i ≠ .readStatus) : t = respond .refused 0 [] s := by
  have hne : s.status.fault ≠ none := Option.isSome_iff_ne_none.1 hf
  cases h with
  | refused => rfl
  | raised _ hclear => exact absurd hclear hne
  | ran _ _ _ hclear => exact absurd hclear (not_or.2 ⟨hi, hne⟩)

/-- While faulted, every command but READ_STATUS is REFUSED and nothing else happens. -/
theorem exec_refused (hf : s.status.fault.isSome = true) (hi : i ≠ .readStatus) :
    exec i s = .next (respond .refused 0 [] s) := by
  obtain ⟨code, value, hnext⟩ := exec_of_faulted i hf
  rw [hnext, (exec_answer hnext).eq_refused hf hi]

/-! ## When a fault is raised (R222, R224) -/

/-- Of the effects of a command, only a raised fault sets FAULTED, and it does nothing else (R222). -/
theorem CommandEffect.eq_raiseFault (h : CommandEffect s t) (hf : s.status.fault = none)
    (hc : t.status.fault = some c) : t = raiseFault c s := by
  cases h with
  | raises =>
    cases hc
    rfl
  | constructsEntropy => simp [hf] at hc
  | responds | constructsSeeded | draws | fills => cases hf.symm.trans hc

/-- A step that raises a fault is the effect of the illegal header or the command at the port: a wait leaves the
block unfaulted, and so does a reset (R213, R250). -/
theorem step_effect_of_raises (hf : s.status.fault = none) (h : step s = .next t) (hc : t.status.fault = some c) :
    ∃ rest, (fetch s.inputs = .illegal rest ∨ ∃ i, fetch s.inputs = .command i rest) ∧
      CommandEffect (s.setInputs rest) t := by
  unfold step at h
  split at h
  · cases h
    cases hf.symm.trans hc
  · cases h
    cases hc
  · rename_i rest hfetch
    exact ⟨rest, .inl hfetch, execIllegalHeader_effect h⟩
  · rename_i i rest hfetch
    rcases resetIfStuck_cases h with hnext | ⟨-, evs, -, rfl⟩
    · exact ⟨rest, .inr ⟨i, hfetch⟩, exec_effect hnext⟩
    · cases hc

end

/-- Settles O10: the command at the port is refused, unless it is READ_STATUS, which stands behind no gate. -/
theorem faultedBlockRefusesAllButReadStatus : Obligations.FaultedBlockRefusesAllButReadStatus := by
  intro s i tail hf hwf hin
  rw [step_of_command hwf hin]
  by_cases hi : i = .readStatus
  · rw [if_pos hi, hi, readStatusAnswersTheStatusWord]
    rfl
  · rw [if_neg hi, exec_refused (s := s.setInputs tail) hf hi]
    rfl

/-- Settles O12: the step is the effect of what stands at the port, and the one that sets FAULTED is the raised fault. -/
theorem faultsArePrecise : Obligations.FaultsArePrecise := by
  intro s t c hf h hc
  obtain ⟨rest, hfetch, heffect⟩ := step_effect_of_raises hf h hc
  exact ⟨rest, hfetch, heffect.eq_raiseFault hf hc⟩

end Sys2Proof.Machine
end

section
/-! PROOFS. Reset at the command port (R250). -/

namespace Sys2Proof.Machine

section

variable {s : State} {ws : List Word} {tail : List HostEvent}

/-- STATUS reads 0 wherever no flag is set, whatever the engine holds (R24, R250). -/
theorem statusWord_of_status_reset (h : s.status = Status.reset) : statusWord s = 0 := by
  simp [statusWord, statusVariant, statusCause, h, Status.reset, flagBit]

/-- A reset behind words that are no whole command is taken, and the words are dropped (R250). -/
theorem fetch_incomplete_reset (hdec : decode ws = .incomplete) :
    fetch (ws.map .word ++ .reset :: tail) = .reset tail := by
  simp [fetch, leadingWords, afterWords, hdec]

/-- A step on words that are no whole command with a reset behind them is the reset (R250). -/
theorem step_of_incomplete_reset (hdec : decode ws = .incomplete)
    (hin : s.inputs = ws.map .word ++ .reset :: tail) : step s = .next (assertReset (s.setInputs tail)) := by
  simp only [step, hin, fetch_incomplete_reset hdec]

end

/-- Settles O8: the step is the reset, with the words of the partial command dropped. -/
theorem resetClearsStatusAndKeepsMemory : Obligations.ResetClearsStatusAndKeepsMemory := by
  intro s ws tail hdec hin
  refine ⟨assertReset (s.setInputs tail), step_of_incomplete_reset hdec hin,
    statusWord_of_status_reset (assertReset_status _), ?_⟩
  simp [Status.reset]

end Sys2Proof.Machine
end
